-- ==== Sys2Proof/Word.lean ====
section
/-! DEFINITION. The word types of the block: its bytes, the 11-bit event word, the 24-bit control value and the
12-bit STATUS view (spec/30_encoding.md R73, R77; spec/10_state.md R33). -/

namespace Sys2Proof

/-- A byte of a port or of PAYLOAD (R54, R70, R71). -/
abbrev Byte := BitVec 8

/-- An event word `KIND[10:8]`, `DATA[7:0]` (R77). -/
abbrev EventWord := BitVec 11

/-- A control value, the 24-bit number of a control group (R73). -/
abbrev Value := BitVec 24

/-- The STATUS view (R33). -/
abbrev StatusWord := BitVec 12

end Sys2Proof
end

