-- ==== Sys2Proof/Syntax.lean ====
section
/-! DEFINITION. The reactions of the block as syntax: one constructor of `Instr` for each row of
spec/opcode_table.json, and the alphabet a run is written in (spec/30_encoding.md R77, R78, R82). -/

namespace Sys2Proof

/-- The transfer phase (spec/10_state.md R24). -/
inductive Phase where
  | idle
  | hdr
  | run
  | fail
deriving DecidableEq, Repr

/-- One reaction of the block; each constructor is the row of the opcode table named in its docstring. -/
inductive Instr where
  /-- RESET (R180). -/
  | reset
  /-- START (R130). -/
  | start
  /-- RX.ACC: an inbound byte that does not complete its group (R101). -/
  | rxAcc (b : Byte)
  /-- CG.PAUSE: the third byte of a group while sending (R102). -/
  | cgPause (b : Byte)
  /-- CG.RESUME: the third byte of a group while paused (R103). -/
  | cgResume (b : Byte)
  /-- TX_OK.HDR: the drain of a header byte (R132). -/
  | txOkHdr
  /-- TX_OK.PAY: the drain of a payload byte (R114). -/
  | txOkPay
  /-- TX_ERR.HDR: the write failure of a header byte (R133). -/
  | txErrHdr
  /-- TX_ERR.PAY: the write failure of a payload byte (R115). -/
  | txErrPay
  /-- STEP.HDR: the engine emits a header byte (R131). -/
  | stepHdr
  /-- STEP.PAY: the engine's payload step (R112). -/
  | stepPay
  /-- RESERVED.KIND: an event word with KIND 101, 110 or 111 (R79). -/
  | reservedKind (kind : BitVec 3) (data : Byte)
  /-- RESERVED.DATA: an event word of a non-RX kind with DATA not zero (R79). -/
  | reservedData (kind : BitVec 3) (data : Byte)
deriving DecidableEq, Repr

/-- One line of a run (R82): the host's event word, or `step`, the engine's own reaction, which has no word (R78). -/
inductive Turn where
  | event (w : EventWord)
  | engine
deriving DecidableEq, Repr

/-- The registers that tell the forms of one event apart (the qualifiers of the opcode table; R78, R100). -/
structure Sel where
  cnt : BitVec 2
  sending : Bool
  phase : Phase
deriving DecidableEq, Repr

/-- What a complete control group means, read from the decode word `{S, V}` (R74). -/
inductive GroupMeaning where
  | pause (v : Value)
  | resume (v : Value)
deriving DecidableEq, Repr

end Sys2Proof
end

