-- ==== Sys2Proof/WellFormed.lean ====
section
/-! DEFINITION. Which terms of `Instr` are rows of the opcode table: only the two reserved rows restrict their fields
(spec/30_encoding.md R79). -/

namespace Sys2Proof

/-- KIND 101, 110 or 111 (R79). -/
def kindReserved (kind : BitVec 3) : Bool := decide (5 ≤ kind.toNat)

/-- KIND 000, 001, 011 or 100: the kinds whose DATA must be 0x00 (R77, R79). -/
def kindBare (kind : BitVec 3) : Bool :=
  decide (kind = 0) || decide (kind = 1) || decide (kind = 3) || decide (kind = 4)

/-- The term is a row of the table with operands the row admits. -/
def Instr.wellFormed : Instr → Bool
  | .reset => true
  | .start => true
  | .rxAcc _ => true
  | .cgPause _ => true
  | .cgResume _ => true
  | .txOkHdr => true
  | .txOkPay => true
  | .txErrHdr => true
  | .txErrPay => true
  | .stepHdr => true
  | .stepPay => true
  | .reservedKind kind _ => kindReserved kind
  | .reservedData kind data => kindBare kind && decide (data ≠ 0)

end Sys2Proof
end

