-- ==== Sys2Proof/Decode.lean ====
section
/-! DEFINITION. The decoder, then the encoder, of the event word (spec/30_encoding.md R77 to R79), the control group's
decode word (R74), and the lines and pseudo-instructions a run is written in (R82, R83).

One event word has several forms, told apart by `cnt`, `sending` and `phase` (the qualifiers of the opcode table), so
the decoder reads a `Sel` beside the word. -/

namespace Sys2Proof

/-- KIND, bits [10:8] of an event word (R77). -/
def eventKind (w : EventWord) : BitVec 3 := w.extractLsb' 8 3

/-- DATA, bits [7:0] of an event word (R77). -/
def eventData (w : EventWord) : Byte := w.extractLsb' 0 8

/-- The event word with the given fields (R77). -/
def mkEvent (kind : BitVec 3) (data : Byte) : EventWord := kind ++ data

/-- Which form RX(b) takes (R100). -/
def decodeRx (v : Sel) (b : Byte) : Instr :=
  if v.cnt.toNat < 2 then .rxAcc b
  else if v.sending then .cgPause b
  else .cgResume b

/-- A kind that carries no data: its own reaction when DATA is 0x00, reserved otherwise (R77, R79). -/
def decodeBare (kind : BitVec 3) (data : Byte) (i : Instr) : Instr :=
  if data = 0 then i else .reservedData kind data

/-- The reaction an event word stands for. Every one of the 2^11 words stands for exactly one (R79).
In phases IDLE and FAIL a response is read as its PAY form; both forms then answer RespNoWrite (R79). -/
def decodeEvent (v : Sel) (w : EventWord) : Instr :=
  match (eventKind w).toNat with
  | 0 => decodeBare (eventKind w) (eventData w) .reset
  | 1 => decodeBare (eventKind w) (eventData w) .start
  | 2 => decodeRx v (eventData w)
  | 3 => decodeBare (eventKind w) (eventData w) (if v.phase = .hdr then .txOkHdr else .txOkPay)
  | 4 => decodeBare (eventKind w) (eventData w) (if v.phase = .hdr then .txErrHdr else .txErrPay)
  | _ => .reservedKind (eventKind w) (eventData w)

/-- The form of STEP: "two forms, told apart by `phase`" (R78). -/
def decodeEngine (v : Sel) : Instr :=
  if v.phase = .hdr then .stepHdr else .stepPay

/-- The reaction a line of a run stands for (R82). -/
def decodeTurn (v : Sel) : Turn → Instr
  | .event w => decodeEvent v w
  | .engine => decodeEngine v

/-- Why a number is no event word. -/
inductive DecodeError where
  /-- The number does not fit in the 11 bits of an event word (R77). -/
  | notAnEventWord (w : Nat)
deriving DecidableEq, Repr

/-- The decoder on any number: bits above bit 10 are refused by name. -/
def decodeNumber (v : Sel) (w : Nat) : Except DecodeError Instr :=
  if w < 2048 then .ok (decodeEvent v (BitVec.ofNat 11 w)) else .error (.notAnEventWord w)

/-- The registers of `Sel` right after RESET (R181). -/
def Sel.afterReset : Sel := { cnt := 0, sending := true, phase := .idle }

/-- What the decoder reads from a table row's word in the state after reset. A row of no bits (`nbits = 0`) is the
engine's own turn (R78). -/
def decodeTableWord (nbits w : Nat) : Option Instr :=
  if nbits = 0 then some (decodeEngine Sel.afterReset)
  else
    match decodeNumber Sel.afterReset w with
    | .ok i => some i
    | .error _ => none

/-! ### The encoder -/

/-- The line of a run that stands for a reaction: its event word (R77), or the engine's turn (R78). -/
def encode : Instr → Turn
  | .reset => .event (mkEvent 0 0)
  | .start => .event (mkEvent 1 0)
  | .rxAcc b => .event (mkEvent 2 b)
  | .cgPause b => .event (mkEvent 2 b)
  | .cgResume b => .event (mkEvent 2 b)
  | .txOkHdr => .event (mkEvent 3 0)
  | .txOkPay => .event (mkEvent 3 0)
  | .txErrHdr => .event (mkEvent 4 0)
  | .txErrPay => .event (mkEvent 4 0)
  | .stepHdr => .engine
  | .stepPay => .engine
  | .reservedKind kind data => .event (mkEvent kind data)
  | .reservedData kind data => .event (mkEvent kind data)

/-- The registers select this form of its event (the qualifiers of the opcode table, less those that raise HostFault). -/
def Instr.selectedBy (v : Sel) : Instr → Bool
  | .reset => true
  | .start => true
  | .rxAcc _ => decide (v.cnt.toNat < 2)
  | .cgPause _ => decide (¬ v.cnt.toNat < 2) && v.sending
  | .cgResume _ => decide (¬ v.cnt.toNat < 2) && !v.sending
  | .txOkHdr => decide (v.phase = .hdr)
  | .txOkPay => decide (v.phase ≠ .hdr)
  | .txErrHdr => decide (v.phase = .hdr)
  | .txErrPay => decide (v.phase ≠ .hdr)
  | .stepHdr => decide (v.phase = .hdr)
  | .stepPay => decide (v.phase ≠ .hdr)
  | .reservedKind _ _ => true
  | .reservedData _ _ => true

/-! ### The control group's decode word -/

/-- The decode word `{S, V}` (R74). -/
def groupWord (s : Bool) (v : Value) : BitVec 25 := BitVec.ofBool s ++ v

/-- Bit 24 is S: 1 a PAUSE group, 0 a RESUME group; bits [23:0] are V (R74). -/
def decodeGroup (g : BitVec 25) : GroupMeaning :=
  if g.getLsbD 24 then .pause (g.extractLsb' 0 24) else .resume (g.extractLsb' 0 24)

/-! ### The lines of a run and the pseudo-instructions -/

/-- `reset` (R82). -/
def lineReset : Turn := .event 0x000
/-- `start` (R82). -/
def lineStart : Turn := .event 0x100
/-- `rx B` (R82): 0x200 | B. -/
def lineRx (b : Byte) : Turn := .event (0x200 ||| b.setWidth 11)
/-- `ok` (R82). -/
def lineOk : Turn := .event 0x300
/-- `err` (R82). -/
def lineErr : Turn := .event 0x400
/-- `step` (R82). -/
def lineStep : Turn := .engine

/-- A chunk of a channel delivery: one RX event a byte, in the chunk's order (R70, R81). -/
def chunk (bs : List Byte) : List Turn := bs.map lineRx

/-- `group B0, B1, B2` (R83). -/
def group (b0 b1 b2 : Byte) : List Turn := [lineRx b0, lineRx b1, lineRx b2]

/-- `pause` (R83). -/
def pauseGroup : List Turn := group 1 1 1

/-- `resume R` (R83): `group R[23:16], R[15:8], R[7:0]`. -/
def resumeGroup (r : Value) : List Turn :=
  group (r.extractLsb' 16 8) (r.extractLsb' 8 8) (r.extractLsb' 0 8)

/-- `xfer` (R83). -/
def xfer : List Turn := [lineStep, lineOk]

/-- `xfer_err` (R83). -/
def xferErr : List Turn := [lineStep, lineErr]

/-- `header` (R83): `xfer` four times. -/
def headerLines : List Turn := xfer ++ xfer ++ xfer ++ xfer

/-- The line is an RX event (KIND 010, R77). -/
def Turn.isRx : Turn → Bool
  | .event w => decide (eventKind w = 2)
  | .engine => false

end Sys2Proof
end

