-- ==== Sys2Proof/Config.lean ====
section
/-! DEFINITION. What the source fixes for every block (spec/00_scope.md R8, "Fixed by the source"). The run
parameters N, PAYLOAD, ID_BYTE and PTR_W are constants of a run, not of the block: State carries them in `par`. -/

namespace Sys2Proof.Config

/-- "the control group is 3 bytes (24 bits)" (R8). -/
def groupBytes : Nat := 3

/-- "the header is 4 bytes" (R8). -/
def headerBytes : Nat := 4

/-- The largest N whose header is exact: 16,777,215 = 2^24 - 1 (R8, R135). -/
def maxExactLength : Nat := 16777215

/-- Launch offsets are below 2^24 (R30, R60). -/
def offsetBound : Nat := 16777216

end Sys2Proof.Config
end

