-- ==== Sys2Proof/Machine/State.lean ====
section
/-! DEFINITION. The state of the block as plain data (spec/10_state.md R20 to R31, spec/00_scope.md R8, R11), the
reasons a step can stop, and the state after reset (spec/70_reset_and_hazards.md R181). -/

namespace Sys2Proof.Machine

/-- The payload buffer (spec/20_memory.md R50): `size` is N, `cells` the bytes at indices below N that are not 0x00,
by rising index. An index below N that is not listed holds 0x00 (see `Memory.wf`, log entry 7). -/
structure Memory where
  size : Nat
  cells : List Host.Cell
deriving DecidableEq, Repr

/-- The run parameters, constants of the run (R8, R34): PAYLOAD with its length N, ID_BYTE, PTR_W. -/
structure Params where
  payload : Memory
  idByte : Byte
  ptrW : Nat
deriving DecidableEq, Repr

/-- The `src` field of WERR (R72, R150). -/
inductive ErrSrc where
  | hdr
  | pay
deriving DecidableEq, Repr

/-- The output events (R10, R11, R72). -/
inductive OutEvent where
  /-- A write request on the TX port. -/
  | tx (b : Byte)
  /-- An invocation reached the end of the buffer. -/
  | done
  /-- The write of the header or payload byte `idx` failed. -/
  | werr (src : ErrSrc) (idx : Nat)
deriving DecidableEq, Repr

/-- The host-protocol violations, each with what R150 says is recorded. -/
inductive HostFault where
  /-- H1: an event other than RESET before the first RESET. -/
  | eventBeforeReset (w : EventWord)
  /-- H2: a reserved event word. -/
  | reservedEvent (w : EventWord)
  /-- H3: START in a phase other than IDLE. -/
  | startNotIdle (p : Phase)
  /-- H4: a TX response with nothing in flight. -/
  | respNoWrite (w : EventWord)
deriving DecidableEq, Repr

/-- Why the machine stops where the spec defines no reaction. -/
inductive Fault where
  /-- A legal event other than RESET is offered while `fault` is set: "no step other than the fault's own recording
  is defined from it" (R31). Raised by `hostEvent`. Safe: the spec defines nothing the model leaves out. -/
  | faulted (r : HostFault)
  /-- STEP.HDR with a header index above 3, for which R131 defines no header byte. Raised by `execStepHdr`; no run from
  RESET reaches it (R25). Safe. -/
  | noHeaderByte (h : BitVec 3)
deriving DecidableEq, Repr

/-- Why the model gives a term no meaning. -/
inductive Refusal where
  /-- The instruction has no meaning in the model yet. Raised by `exec` alone; safe. -/
  | notModelled (mnemonic : String)
  /-- The registers select another form of this event (the opcode table's qualifiers), so this form is no reaction
  here. Raised by `hostEvent`; `step` selects the form before it calls `exec`, so only a direct call, or a response
  with busy = 1 in phase IDLE or FAIL (which R32 I2 excludes), can see it. Safe. -/
  | formNotSelected
  /-- The schedule gives the engine a turn while STEP is not enabled; such a line cannot be written (R82: "must be
  enabled"). Raised by `engineStep`; safe. -/
  | stepNotEnabled
deriving DecidableEq, Repr

/-- The whole state. -/
structure State where
  /-- The run parameters (R8); no reaction writes them (R34). -/
  par : Params
  /-- Whether the first RESET has been taken (R79, R182). -/
  wasReset : Bool
  /-- Send State (R21). -/
  sending : Bool
  /-- The group counter (R22). -/
  cnt : BitVec 2
  /-- The accumulator (R23). -/
  acc : Value
  /-- The transfer phase (R24). -/
  phase : Phase
  /-- The header index (R25). -/
  hidx : BitVec 3
  /-- One byte is in flight (R26). -/
  busy : Bool
  /-- A payload invocation is live (R27). -/
  act : Bool
  /-- The streaming cursor (R28). -/
  pos : Nat
  /-- A launch request is pending (R29). -/
  lreq : Bool
  /-- The launch offset (R30). -/
  loff : Nat
  /-- The first host-protocol violation, if any (R31). -/
  fault : Option HostFault
  /-- The trace, oldest first (R11). -/
  trace : List OutEvent
  /-- The model's own field: the reactions the environment has chosen and that are still to come, next first
  (R62, R154, R82; log entry 4). -/
  schedule : List Turn
deriving DecidableEq, Repr

/-- The state right after RESET (R181). The host's parameters, the trace and the schedule are the model's choices
(log entries 2, 3, 4): no payload, ID_BYTE 0, the least PTR_W, nothing emitted, nothing offered. -/
def State.reset : State where
  par := { payload := { size := 0, cells := [] }, idByte := 0, ptrW := 24 }
  wasReset := true
  sending := true
  cnt := 0
  acc := 0
  phase := .idle
  hidx := 0
  busy := false
  act := false
  pos := 0
  lreq := false
  loff := 0
  fault := none
  trace := []
  schedule := []

end Sys2Proof.Machine
end

