-- ==== Sys2Proof/Machine/Memory.lean ====
section
/-! DEFINITION. The payload buffer: reading it, its canonical form, and the host's load (spec/20_memory.md R50 to R52,
R59; spec/70_reset_and_hazards.md R183 step 2). The block has no write (R52). -/

namespace Sys2Proof.Machine

/-- What an index below N that is not listed holds: the list leaves zero bytes out (log entry 7). -/
def Memory.unlisted : Byte := 0

/-- The byte a cell list gives an index. -/
def cellAt : List Host.Cell → Nat → Byte
  | [], _ => Memory.unlisted
  | (a, b) :: rest, i => if a = i then b else cellAt rest i

/-- `PAYLOAD[i]` (R10), which the spec defines for i < N only; its one caller tests that first (R51, R112). -/
def Memory.byteAt (m : Memory) (i : Nat) : Byte := cellAt m.cells i

/-- `PAYLOAD[i]` with its domain: no byte stands at N or above (R59). -/
def Memory.read (m : Memory) (i : Nat) : Option Byte :=
  if i < m.size then some (m.byteAt i) else none

/-- Indices rise strictly from `lo`, stay below `hi`, and no listed byte is 0x00. -/
def cellsWf (lo hi : Nat) : List Host.Cell → Bool
  | [] => true
  | (a, b) :: rest => decide (lo ≤ a) && decide (a < hi) && decide (b ≠ Memory.unlisted) && cellsWf (a + 1) hi rest

/-- The canonical form: equal buffers are equal data. -/
def Memory.wf (m : Memory) : Bool := cellsWf 0 m.size m.cells

/-- The cells of a byte sequence that starts at `base`. -/
def cellsOf (base : Nat) : List Byte → List Host.Cell
  | [] => []
  | b :: bs => if b = Memory.unlisted then cellsOf (base + 1) bs else (base, b) :: cellsOf (base + 1) bs

/-- The host's load: the file's bytes become PAYLOAD and their count N (R183 step 2). -/
def Memory.ofBytes (bs : List Byte) : Memory := { size := bs.length, cells := cellsOf 0 bs }

/-- What R8 asks of the parameters: PTR_W at least 24 and 2^PTR_W above N; and the buffer in canonical form. -/
def Params.ok (p : Params) : Bool :=
  p.payload.wf && decide (24 ≤ p.ptrW) && decide (p.payload.size < 2 ^ p.ptrW)

end Sys2Proof.Machine
end

