-- ==== Sys2Proof/Machine/Operands.lean ====
section
/-! DEFINITION. The operand values of the reactions: the control value a byte completes (spec/30_encoding.md R73), the
header bytes (spec/42_header.md R131), N and the payload byte at an index. -/

namespace Sys2Proof.Machine

/-- `(acc * 256 + b) mod 2^24` (R101 to R103). -/
def shiftIn (acc : Value) (b : Byte) : Value := acc * 256 + b.setWidth 24

/-- `zext_PTR_W(V)`: the launch offset is held as a natural number (R8, R103). -/
def offsetOf (v : Value) : Nat := v.toNat

/-- N (R8). -/
def State.payloadSize (s : State) : Nat := s.par.payload.size

/-- `PAYLOAD[i]` (R10). -/
def State.payloadByte (s : State) (i : Nat) : Byte := s.par.payload.byteAt i

/-- The four header bytes `[ID_BYTE, N[23:16], N[15:8], N[7:0]]` (R75, R131). -/
def headerBytes (idByte : Byte) (n : Nat) : List Byte :=
  [idByte, BitVec.ofNat 8 (n >>> 16), BitVec.ofNat 8 (n >>> 8), BitVec.ofNat 8 n]

/-- `hdr(h)`, defined for h = 0 .. 3 (R131). -/
def State.headerByte (s : State) (h : BitVec 3) : Option Byte :=
  (headerBytes s.par.idByte s.payloadSize)[h.toNat]?

/-- The registers that select the form of an event. -/
def State.sel (s : State) : Sel := { cnt := s.cnt, sending := s.sending, phase := s.phase }

end Sys2Proof.Machine
end

