-- ==== Sys2Proof/Machine/Flags.lean ====
section
/-! DEFINITION. The one status flag, `sending` (spec/10_state.md R38), the STATUS view (R33), the numeric codes of
phases and WERR sources (R24, R150), and when STEP is enabled (spec/41_streamer.md R111). -/

namespace Sys2Proof.Machine

/-- `sending <- 0` at a PAUSE group (R102). -/
def State.pauseSending (s : State) : State := { s with sending := false }

/-- `sending <- 1` at a RESUME group (R103). -/
def State.resumeSending (s : State) : State := { s with sending := true }

/-- IDLE=0, HDR=1, RUN=2, FAIL=3 (R24). -/
def phaseCode : Phase → BitVec 2
  | .idle => 0
  | .hdr => 1
  | .run => 2
  | .fail => 3

/-- PAY = 1, HDR = 2 (R150). -/
def errCode : ErrSrc → Nat
  | .pay => 1
  | .hdr => 2

/-- The STATUS view: bit 11 reads 0, then HIDX, LREQ, ACT, BUSY, PHASE, CNT, SENDING (R33). -/
def State.status (s : State) : StatusWord :=
  (0 : BitVec 1) ++ s.hidx ++ BitVec.ofBool s.lreq ++ BitVec.ofBool s.act ++ BitVec.ofBool s.busy
    ++ phaseCode s.phase ++ s.cnt ++ BitVec.ofBool s.sending

/-- The conditions STEP.HDR and STEP.PAY share: no fault, nothing in flight (R111), and a first RESET (R182). -/
def State.engineFree (s : State) : Bool := s.wasReset && s.fault.isNone && !s.busy

/-- STEP.HDR is enabled (R111). -/
def State.hdrEnabled (s : State) : Bool := s.engineFree && decide (s.phase = .hdr)

/-- STEP.PAY is enabled (R111). -/
def State.payEnabled (s : State) : Bool := s.engineFree && decide (s.phase = .run) && (s.lreq || s.act)

/-- STEP is enabled (R111). -/
def State.stepEnabled (s : State) : Bool := s.hdrEnabled || s.payEnabled

end Sys2Proof.Machine
end

