-- ==== Sys2Proof/Machine/Ops.lean ====
section
/-! DEFINITION. The operations the meanings share: emitting an output event (spec/00_scope.md R10), recording a
HostFault (spec/60_exceptions.md R157), taking a host event, taking a STEP, and choosing the next reaction. No return
from an error exists (R158), so none is here. -/

namespace Sys2Proof.Machine

/-- What a reaction answers. -/
abbrev Result := Host.Outcome State Fault Refusal

/-- An output event joins the trace (R10). -/
def State.emit (o : OutEvent) (s : State) : State := { s with trace := s.trace ++ [o] }

/-- `emit TX(b); busy <- 1` (R112, R131). -/
def State.writeByte (b : Byte) (s : State) : State := { s.emit (.tx b) with busy := true }

/-- `busy <- 0`: the byte in flight is answered. -/
def State.answer (s : State) : State := { s with busy := false }

/-- `acc <- 0; cnt <- 0`: the group is complete (R102, R103). -/
def State.closeGroup (s : State) : State := { s with acc := 0, cnt := 0 }

/-- A launch request at an offset; it replaces a pending one (R29, R103, R130). -/
def State.requestLaunch (off : Nat) (s : State) : State := { s with lreq := true, loff := off }

/-- STEP.PAY's first part: take the launch request, if there is one (R112). -/
def State.takeLaunch (s : State) : State :=
  if s.lreq then { s with pos := s.loff, lreq := false, act := true } else s

/-- RESET's writes (R180): every block register, not `fault`, not the trace, not the parameters. -/
def State.clearRegisters (s : State) : State :=
  { s with
    sending := true, cnt := 0, acc := 0, phase := .idle, hidx := 0, busy := false, act := false, pos := 0,
    lreq := false, loff := 0, wasReset := true }

/-- HostFault(reason): `fault <- reason` if `fault` is none, an existing fault is kept, and the event changes no
block register (R157). -/
def raiseHostFault (r : HostFault) (s : State) : Result :=
  .next { s with fault := s.fault.or (some r) }

/-- What every host event other than RESET shares. `w` is its word, `violation` the rule its row says it breaks in
this state, `selected` the row's qualifier, `t` the state its rule gives. EventBeforeReset comes first (R155, R182),
then the row's own violation (R157); a legal event has no meaning while `fault` is set (R31). -/
def hostEvent (w : EventWord) (violation : Option HostFault) (selected : Bool) (s t : State) : Result :=
  if s.wasReset then
    match violation with
    | some r => raiseHostFault r s
    | none =>
      match s.fault with
      | some r => .fault (.faulted r)
      | none => if selected then .next t else .refused .formNotSelected
  else raiseHostFault (.eventBeforeReset w) s

/-- The violation of a TX response: RespNoWrite if nothing is in flight (R157). -/
def noWrite (w : EventWord) (s : State) : Option HostFault :=
  if s.busy then none else some (.respNoWrite w)

/-- A STEP happens only where it is enabled (R82, R111). -/
def engineStep (enabled : Bool) (r : Result) : Result :=
  if enabled then r else .refused .stepNotEnabled

/-- The next reaction and the state it happens in: the schedule's first line; with nothing offered, the engine moves
if STEP is enabled (weak fairness, R111; log entry 5), and otherwise there is none. -/
def fetchTurn (s : State) : Option (Turn × State) :=
  match s.schedule with
  | t :: rest => some (t, { s with schedule := rest })
  | [] => if s.stepEnabled then some (.engine, s) else none

end Sys2Proof.Machine
end

