-- ==== Sys2Proof/Machine/Decoder.lean ====
section
/-! DEFINITION. The Flow-Control Decoder: RX.ACC, CG.PAUSE, CG.RESUME (spec/40_decoder.md R100 to R103). -/

namespace Sys2Proof.Machine

/-- RX.ACC (R101). -/
def execRxAcc (b : Byte) (s : State) : Result :=
  hostEvent (mkEvent 2 b) none ((Instr.rxAcc b).selectedBy s.sel) s
    { s with acc := shiftIn s.acc b, cnt := s.cnt + 1 }

/-- CG.PAUSE (R102): the control value is discarded. -/
def execCgPause (b : Byte) (s : State) : Result :=
  hostEvent (mkEvent 2 b) none ((Instr.cgPause b).selectedBy s.sel) s s.pauseSending.closeGroup

/-- CG.RESUME (R103): the control value is the Resume Offset, which is not checked. -/
def execCgResume (b : Byte) (s : State) : Result :=
  hostEvent (mkEvent 2 b) none ((Instr.cgResume b).selectedBy s.sel) s
    ((s.resumeSending.requestLaunch (offsetOf (shiftIn s.acc b))).closeGroup)

end Sys2Proof.Machine
end

