-- ==== Sys2Proof/Machine/Header.lean ====
section
/-! DEFINITION. The Header Encoder: START, STEP.HDR, TX_OK.HDR, TX_ERR.HDR (spec/42_header.md R130 to R133). -/

namespace Sys2Proof.Machine

/-- START's violation (R130). -/
def notIdle (s : State) : Option HostFault :=
  if s.phase = .idle then none else some (.startNotIdle s.phase)

/-- START (R130). -/
def execStart (s : State) : Result :=
  hostEvent (mkEvent 1 0) (notIdle s) true s
    (State.requestLaunch 0 { s with phase := .hdr, hidx := 0 })

/-- STEP.HDR (R131): `sending` is not read (R134). -/
def execStepHdr (s : State) : Result :=
  engineStep s.hdrEnabled
    (match s.headerByte s.hidx with
      | some b => .next (s.writeByte b)
      | none => .fault (.noHeaderByte s.hidx))

/-- The phase after the header index becomes `h`: RUN once the fourth byte has drained (R132). -/
def phaseAfterHeader (h : BitVec 3) (p : Phase) : Phase := if h = 4 then .run else p

/-- TX_OK.HDR (R132). -/
def execTxOkHdr (s : State) : Result :=
  hostEvent (mkEvent 3 0) (noWrite (mkEvent 3 0) s) (decide (s.phase = .hdr)) s
    { s.answer with hidx := s.hidx + 1, phase := phaseAfterHeader (s.hidx + 1) s.phase }

/-- TX_ERR.HDR (R133): FAIL is terminal until RESET. -/
def execTxErrHdr (s : State) : Result :=
  hostEvent (mkEvent 4 0) (noWrite (mkEvent 4 0) s) (decide (s.phase = .hdr)) s
    { s.answer.emit (.werr .hdr s.hidx.toNat) with phase := .fail }

end Sys2Proof.Machine
end

