-- ==== Sys2Proof/Machine/Streamer.lean ====
section
/-! DEFINITION. The Byte Streamer: STEP.PAY, TX_OK.PAY, TX_ERR.PAY (spec/41_streamer.md R112, R114, R115). -/

namespace Sys2Proof.Machine

/-- STEP.PAY's second part, with the invocation live: the end of the buffer is tested first, then Send State, and only
then a byte is written (R112). -/
def streamOne (s : State) : State :=
  if s.payloadSize ≤ s.pos then State.emit .done { s with act := false }
  else if s.sending then s.writeByte (s.payloadByte s.pos)
  else { s with act := false }

/-- STEP.PAY (R112). -/
def execStepPay (s : State) : Result :=
  engineStep s.payEnabled (.next (streamOne s.takeLaunch))

/-- TX_OK.PAY (R114). -/
def execTxOkPay (s : State) : Result :=
  hostEvent (mkEvent 3 0) (noWrite (mkEvent 3 0) s) (decide (s.phase = .run)) s
    { s.answer with pos := s.pos + 1 }

/-- TX_ERR.PAY (R115): the failed byte is not retried. -/
def execTxErrPay (s : State) : Result :=
  hostEvent (mkEvent 4 0) (noWrite (mkEvent 4 0) s) (decide (s.phase = .run)) s
    (State.emit (.werr .pay s.pos) { s.answer with act := false })

end Sys2Proof.Machine
end

