-- ==== Sys2Proof/Machine/System.lean ====
section
/-! DEFINITION. RESET (spec/70_reset_and_hazards.md R180) and the two reserved rows (spec/30_encoding.md R79). -/

namespace Sys2Proof.Machine

/-- RESET (R180): "enabled in every state, including before any other event". -/
def execReset (s : State) : Result := .next s.clearRegisters

/-- RESERVED.KIND: always HostFault(ReservedEvent), after EventBeforeReset (R79, R155). -/
def execReservedKind (kind : BitVec 3) (data : Byte) (s : State) : Result :=
  hostEvent (mkEvent kind data) (some (.reservedEvent (mkEvent kind data))) true s s

/-- RESERVED.DATA: always HostFault(ReservedEvent), before StartNotIdle and RespNoWrite (R79, R155). -/
def execReservedData (kind : BitVec 3) (data : Byte) (s : State) : Result :=
  hostEvent (mkEvent kind data) (some (.reservedEvent (mkEvent kind data))) true s s

end Sys2Proof.Machine
end

