-- ==== Sys2Proof/Machine/Dispatch.lean ====
section
/-! DEFINITION. The dispatch: one arm for each row of the opcode table. -/

namespace Sys2Proof.Machine

def exec (i : Instr) (s : State) : Host.Outcome State Fault Refusal :=
  match i with
  | .reset => Sys2Proof.Machine.execReset s
  | .start => Sys2Proof.Machine.execStart s
  | .rxAcc b => Sys2Proof.Machine.execRxAcc b s
  | .cgPause b => Sys2Proof.Machine.execCgPause b s
  | .cgResume b => Sys2Proof.Machine.execCgResume b s
  | .txOkHdr => Sys2Proof.Machine.execTxOkHdr s
  | .txOkPay => Sys2Proof.Machine.execTxOkPay s
  | .txErrHdr => Sys2Proof.Machine.execTxErrHdr s
  | .txErrPay => Sys2Proof.Machine.execTxErrPay s
  | .stepHdr => Sys2Proof.Machine.execStepHdr s
  | .stepPay => Sys2Proof.Machine.execStepPay s
  | .reservedKind kind data => Sys2Proof.Machine.execReservedKind kind data s
  | .reservedData kind data => Sys2Proof.Machine.execReservedData kind data s

end Sys2Proof.Machine
end

