-- ==== Sys2Proof/Machine/Step.lean ====
section
/-! DEFINITION. One step of the machine: one reaction of the block (spec/20_memory.md R57, R62). -/

namespace Sys2Proof.Machine

/-- The next reaction, decoded in the state it happens in. With nothing offered and no STEP enabled the block waits:
the state stays as it is, which is no fault (spec/60_exceptions.md R164). -/
def step (s : State) : Host.Outcome State Fault Refusal :=
  match fetchTurn s with
  | none => .next s
  | some (t, s') => exec (decodeTurn s'.sel t) s'

/-- `s` with an event word offered next; a row of no bits is the engine's turn (R78). -/
def State.withFetchWord (s : State) (nbits w : Nat) : State :=
  { s with schedule := (if nbits = 0 then Turn.engine else Turn.event (BitVec.ofNat 11 w)) :: s.schedule }

end Sys2Proof.Machine
end

