-- ==== Sys2Proof/Safety.lean ====
section
/-! DEFINITION. The terms claims are made in: the invariants of spec/10_state.md R32, the end of a run
(spec/70_reset_and_hazards.md R195, R196), which event breaks which host duty (spec/30_encoding.md R79,
spec/60_exceptions.md R155), runs over a list of turns, and what can be read off such a list. -/

namespace Sys2Proof.Machine

/-! ### Invariants -/

/-- The last output event is the byte `b`, which is therefore the byte in flight while `busy` is set (R26). -/
def State.lastTx (s : State) (b : Byte) : Prop := s.trace.getLast? = some (.tx b)

/-- What holds of every state reached from RESET: I1 to I7 and I9 of R32 (I8 is about runs), and the bounds that R22,
R25, R28, R30 and R132 give. I9 is `busy` being one bit. -/
structure StateInv (s : State) : Prop where
  /-- The first RESET has been taken (R182). -/
  taken : s.wasReset = true
  /-- I1: cnt is 0, 1 or 2 (R22). -/
  cnt_le : s.cnt.toNat ≤ 2
  /-- I1. -/
  acc_zero : s.cnt = 0 → s.acc = 0
  /-- I1. -/
  acc_one : s.cnt = 1 → s.acc.toNat < 256
  /-- I1. -/
  acc_two : s.cnt = 2 → s.acc.toNat < 65536
  /-- I2. -/
  busy_phase : s.busy = true → s.phase = .hdr ∨ s.phase = .run
  /-- I3, and R25 for an idle engine. -/
  hdr_hidx : s.phase = .hdr → s.hidx.toNat ≤ 3
  /-- I3: the byte in flight is header byte hidx. -/
  hdr_flight : s.phase = .hdr → s.busy = true → ∃ b, s.headerByte s.hidx = some b ∧ s.lastTx b
  /-- I4: the byte in flight is PAYLOAD[pos]. -/
  run_flight : s.phase = .run → s.busy = true →
    s.act = true ∧ s.pos < s.payloadSize ∧ s.lastTx (s.payloadByte s.pos)
  /-- I5. -/
  idle_clear : s.phase = .idle → s.busy = false ∧ s.act = false ∧ s.hidx = 0
  /-- I6. -/
  act_run : s.act = true → s.phase = .run
  /-- I7. -/
  run_hidx : s.phase = .run → s.hidx = 4
  /-- In FAIL hidx is the index of the header byte that failed (R25). -/
  fail_hidx : s.phase = .fail → s.hidx.toNat ≤ 3
  /-- START's request, or the resume that replaced it, is still pending in HDR (R130, R132). -/
  hdr_lreq : s.phase = .hdr → s.lreq = true
  /-- R28. -/
  pos_le : s.pos ≤ max s.payloadSize Config.maxExactLength
  /-- R30. -/
  loff_lt : s.loff < Config.offsetBound

/-- "once RESET has been taken and while `fault` is none" (R100): legal events have a meaning here. -/
def Accepting (s : State) : Prop := s.wasReset = true ∧ s.fault = none

/-- The index a payload step looks at: the launch offset if a request is pending, else the cursor (R112). -/
def State.streamIndex (s : State) : Nat := if s.lreq then s.loff else s.pos

/-! ### The end of a run -/

/-- "A state is quiescent when `fault` is none, no STEP is enabled, and `busy = 0`" (R195). -/
def Quiescent (s : State) : Bool := s.fault.isNone && !s.stepEnabled && !s.busy

/-- The wait state "paused": `sending = 0` and no launch request is pending (R164). -/
def Paused (s : State) : Bool := !s.sending && !s.lreq

/-- The run has ended: quiescent, and the host offers no further event (R195). -/
def Ended (s : State) : Bool := Quiescent s && s.schedule.isEmpty

/-- A run that waits for ever, paused: "a quiescent end of run that is not complete ..., never ... a fault" (R164; U6 of
spec/93_implementation_defined.md; log entry 15). -/
def Stalled (s : State) : Bool := Ended s && Paused s

/-- The end of a run that does not wait, paused, for a resume (R195, less what R164 says is not complete; log
entry 15). -/
def Complete (s : State) : Bool := Ended s && !Paused s

/-- "A run is faulted when `fault` is set" (R195). -/
def Faulted (s : State) : Bool := s.fault.isSome

/-- A state before the first RESET: the registers are unspecified, so nothing is asked of them (R182). -/
def PowerOn (s : State) : Prop := s.wasReset = false ∧ s.fault = none ∧ s.trace = []

/-- The clean launch state of R196: the state of R181 after RESET, no fault, and parameters that keep R8. HD-e is that
no reaction writes the parameters. HD-f admits every N: "keep N ≤ 16,777,215, or accept the truncated header" (R185,
D22). -/
def CleanLaunch (s : State) : Prop :=
  s = { State.reset with par := s.par, trace := s.trace, schedule := s.schedule } ∧ s.par.ok = true

/-! ### Host duties -/

/-- The reserved event words: KIND 101 and above, or DATA not zero on a kind other than RX (R79). -/
def reservedWord (w : EventWord) : Bool :=
  decide (0x500 ≤ w.toNat) || (decide (w.toNat / 256 ≠ 2) && decide (w.toNat % 256 ≠ 0))

/-- Which HostFault an event word raises in a state, the first that applies in the order of R155. -/
def violationOf (s : State) (w : EventWord) : Option HostFault :=
  if w = 0x000 then none
  else if s.wasReset = false then some (.eventBeforeReset w)
  else if reservedWord w then some (.reservedEvent w)
  else if w = 0x100 ∧ s.phase ≠ .idle then some (.startNotIdle s.phase)
  else if (w = 0x300 ∨ w = 0x400) ∧ s.busy = false then some (.respNoWrite w)
  else none

/-! ### Runs -/

/-- The run of a list of turns from a state: one step a turn. -/
def runTurns (ts : List Turn) (s : State) : Result :=
  Host.Core.run core ts.length { s with schedule := ts }

/-- The turn is RESET. -/
def isResetTurn (t : Turn) : Bool := decide (t = lineReset)

/-- The turn is START. -/
def isStartTurn (t : Turn) : Bool := decide (t = lineStart)

/-- The inbound bytes after the last RESET, oldest first, when `bs` came before the list. -/
def bytesAfterReset (bs : List Byte) : List Turn → List Byte
  | [] => bs
  | .engine :: ts => bytesAfterReset bs ts
  | .event w :: ts =>
    if w = 0x000 then bytesAfterReset [] ts
    else if eventKind w = 2 then bytesAfterReset (bs ++ [eventData w]) ts
    else bytesAfterReset bs ts

/-- How many START events follow the last RESET, when `n` came before the list. -/
def startsAfterReset (n : Nat) : List Turn → Nat
  | [] => n
  | t :: ts =>
    if isResetTurn t then startsAfterReset 0 ts
    else if isStartTurn t then startsAfterReset (n + 1) ts
    else startsAfterReset n ts

/-- The unsigned number a byte sequence spells, most significant byte first (R53, R73). -/
def bigEndian (bs : List Byte) : Nat := bs.foldl (fun v b => v * 256 + b.toNat) 0

/-- The output events of the trace that are payload or header bytes: "the outbound byte sequence" (R11). -/
def outboundBytes (os : List OutEvent) : List Byte :=
  os.filterMap (fun o => match o with
    | .tx b => some b
    | .done => none
    | .werr _ _ => none)

/-- Of the reactions of a run, those that write a payload byte: in RUN, with nothing in flight before and a byte in
flight after (R112). -/
def writesPayload (s t : State) : Bool := decide (s.phase = .run) && !s.busy && t.busy

/-- The positions of the trace at which the run of `ts` from `s` puts a payload byte. -/
def payloadPositions : List Turn → State → List Nat
  | [], _ => []
  | x :: xs, s =>
    match exec (decodeTurn s.sel x) s with
    | .next t => if writesPayload s t then s.trace.length :: payloadPositions xs t else payloadPositions xs t
    | .fault _ => []
    | .refused _ => []

/-- The payload bytes from index `r` on (R118). -/
def payloadFrom (s : State) (r : Nat) : List Byte :=
  (List.range (s.payloadSize - r)).map (fun k => s.payloadByte (r + k))

end Sys2Proof.Machine
end

