-- ==== Sys2Proof/Certificates/Slice0/Obligations.lean ====
section
/-! DEFINITION. The statements for the provers, each with the rule of spec/ it formalises. -/

section

open Sys2Proof Sys2Proof.Machine

/-! ### Encoding -/

/-- R77 to R79 (the event word is "this spec's own choice, not a DST wire format"): no bit of an event word is
dropped. Every well-formed reaction, in every state that selects its form, is read back from its own line with every
operand. -/
def Obligations.DecodeOfEncodeIsTheReaction : Prop :=
  ∀ (v : Sel) (i : Instr), i.wellFormed = true → i.selectedBy v = true → decodeTurn v (encode i) = i

/-- R77 ("this spec's own choice"), R79, R81: every line has exactly one reading, which is well-formed, selected, and
encodes to that line. -/
def Obligations.EncodeOfDecodeIsTheLine : Prop :=
  ∀ (v : Sel) (t : Turn),
    encode (decodeTurn v t) = t ∧ (decodeTurn v t).wellFormed = true ∧ (decodeTurn v t).selectedBy v = true

/-- R77 ("this spec's own choice"), R78: words of the spec's table, each read as the row it stands for. -/
def Obligations.DecodesTheSpecsWords : Prop :=
  (∀ v, decodeEvent v 0x000 = .reset) ∧
  (∀ v, decodeEvent v 0x100 = .start) ∧
  (∀ s p, decodeEvent ⟨0, s, p⟩ 0x212 = .rxAcc 0x12) ∧
  (∀ s p, decodeEvent ⟨1, s, p⟩ 0x2FF = .rxAcc 0xFF) ∧
  (∀ p, decodeEvent ⟨2, true, p⟩ 0x201 = .cgPause 0x01) ∧
  (∀ p, decodeEvent ⟨2, false, p⟩ 0x203 = .cgResume 0x03) ∧
  (∀ c s, decodeEvent ⟨c, s, .hdr⟩ 0x300 = .txOkHdr ∧ decodeEvent ⟨c, s, .run⟩ 0x300 = .txOkPay) ∧
  (∀ c s, decodeEvent ⟨c, s, .hdr⟩ 0x400 = .txErrHdr ∧ decodeEvent ⟨c, s, .run⟩ 0x400 = .txErrPay) ∧
  (∀ v, decodeEvent v 0x500 = .reservedKind 5 0 ∧ decodeEvent v 0x7FF = .reservedKind 7 0xFF) ∧
  (∀ v, decodeEvent v 0x301 = .reservedData 3 0x01 ∧ decodeEvent v 0x080 = .reservedData 0 0x80)

/-- R79 over the event word of R77 ("this spec's own choice"), first two cases: the reserved words are those of KIND
101 and above, and those of a kind other than RX with DATA not zero; a word of the first sort is never read as the
second. -/
def Obligations.ReservedWordsAreExactlyThese : Prop :=
  ∀ (v : Sel) (w : EventWord),
    ((∃ k d, decodeEvent v w = .reservedKind k d) ↔ 0x500 ≤ w.toNat) ∧
    ((∃ k d, decodeEvent v w = .reservedData k d) ↔
      w.toNat < 0x500 ∧ w.toNat / 256 ≠ 2 ∧ w.toNat % 256 ≠ 0)

/-- R74, R100: the decode word, its layout, and that a group's meaning depends only on `sending` when it completes:
every control value is legal for both meanings. The third clause takes `cnt` at least 2: that a byte completes the
group at `cnt` = 3, a value no run reaches, is DEDUCED from R100's else branches (log entry 13). -/
def Obligations.GroupMeaningDependsOnSendingAlone : Prop :=
  (∀ (S : Bool) (V : Value), (groupWord S V).toNat = S.toNat * 2 ^ 24 + V.toNat) ∧
  (∀ (S : Bool) (V : Value), decodeGroup (groupWord S V) = if S then .pause V else .resume V) ∧
  (∀ (v : Sel) (b : Byte) (V : Value), 2 ≤ v.cnt.toNat →
    (decodeEvent v (0x200 ||| b.setWidth 11) = .cgPause b ↔ decodeGroup (groupWord v.sending V) = .pause V) ∧
    (decodeEvent v (0x200 ||| b.setWidth 11) = .cgResume b ↔ decodeGroup (groupWord v.sending V) = .resume V))

/-! ### RESET and the invariants -/

/-- R180 (of whose values it says that all but `sending`, `acc` and `cnt` "are this spec's own"): RESET in every
state. It is decoded from 0x000 whatever the registers hold; it keeps `fault`, the trace and the parameters; a late
response for a byte written before it is RespNoWrite. -/
def Obligations.ResetWritesEveryRegister : Prop :=
  ∀ s : State, ∃ r : State,
    r = { s with
      sending := true, cnt := 0, acc := 0, phase := .idle, hidx := 0, busy := false, act := false, pos := 0,
      lreq := false, loff := 0, wasReset := true } ∧
    decodeEvent s.sel 0x000 = .reset ∧
    exec .reset s = .next r ∧
    r.status = 0x001 ∧
    (∀ w : EventWord, w = 0x300 ∨ w = 0x400 → s.fault = none →
      exec (decodeEvent r.sel w) r = .next { r with fault := some (.respNoWrite w) })

/-- R181, R196: after RESET every register has its value in `State.reset`; the host's parameters, the trace and the
schedule stay as they were (their values in State.reset are the model's choice, log entries 2 to 4; nothing here rests
on them), `fault` is not changed, and no STEP is enabled. -/
def Obligations.ResetGivesTheResetState : Prop :=
  ∀ s : State,
    exec .reset s =
      .next { State.reset with par := s.par, fault := s.fault, trace := s.trace, schedule := s.schedule } ∧
    ({ State.reset with par := s.par, fault := s.fault, trace := s.trace, schedule := s.schedule } : State).stepEnabled
      = false ∧
    State.reset.fault = none

/-- R32 (an inference the spec marks as its own): the invariants hold right after every RESET, and in State.reset. -/
def Obligations.InvariantsHoldAfterReset : Prop :=
  StateInv State.reset ∧ ∀ s t : State, exec .reset s = .next t → StateInv t

/-- R32 (an inference the spec marks as its own): every step keeps the invariants, from every state that meets them.
-/
def Obligations.EveryStepKeepsTheInvariants : Prop :=
  ∀ s t : State, StateInv s → step s = .next t → StateInv t

/-- R32 (an inference the spec marks as its own) with I8: after any run that begins with RESET and records no
HostFault, the invariants hold, and outside IDLE exactly one START has been taken since the last RESET. -/
def Obligations.EveryRunFromResetMeetsTheInvariants : Prop :=
  ∀ (ts : List Turn) (s t : State), runTurns (lineReset :: ts) s = .next t → t.fault = none →
    StateInv t ∧ startsAfterReset 0 ts = if t.phase = .idle then 0 else 1

/-- R34, R52: no reaction writes a run parameter: every index of PAYLOAD reads as before, and N, ID_BYTE and PTR_W
stay. -/
def Obligations.NoReactionWritesTheParameters : Prop :=
  ∀ s t : State, step s = .next t →
    t.par = s.par ∧ ∀ i, t.par.payload.read i = s.par.payload.read i

/-- R28, R30, R37: the cursor and the launch offset fit in PTR_W bits before and after every step, so `pos` cannot
wrap. -/
def Obligations.CursorFitsInPtrWBits : Prop :=
  ∀ s t : State, StateInv s → s.par.ok = true → step s = .next t →
    s.pos < 2 ^ s.par.ptrW ∧ s.loff < 2 ^ s.par.ptrW ∧ t.pos < 2 ^ s.par.ptrW ∧ t.loff < 2 ^ s.par.ptrW

/-- R50, log entry 7: buffers in canonical form that read alike at every index are equal data. -/
def Obligations.PayloadsThatReadAlikeAreEqual : Prop :=
  ∀ m m' : Memory, m.wf = true → m'.wf = true → (∀ i, m.read i = m'.read i) → m = m'

/-! ### Host faults -/

/-- R79, R155, R157 ("how the model refuses a host-protocol violation", "not block behaviour"): an offered event
raises the first HostFault that applies, which changes no block register and keeps an existing fault; an event that
breaks no duty records none. -/
def Obligations.IllegalEventsRaiseTheirHostFault : Prop :=
  ∀ (s : State) (w : EventWord) (rest : List Turn), s.schedule = .event w :: rest →
    (∀ r, violationOf s w = some r →
      step s = .next { s with fault := s.fault.or (some r), schedule := rest }) ∧
    (violationOf s w = none → ∀ t, step s = .next t → t.fault = s.fault)

/-- R182 (marked by the spec as its own decision, D15 and D17), R155: before the first RESET every event other than
RESET, reserved words included, raises EventBeforeReset, and no register is read or changed. -/
def Obligations.EventsBeforeResetAreHostFaults : Prop :=
  ∀ (i : Instr) (w : EventWord) (s : State), encode i = .event w → i ≠ .reset → s.wasReset = false →
    exec i s = .next { s with fault := s.fault.or (some (.eventBeforeReset w)) }

/-- R79 (over the event word, the spec's own choice), R155: a reserved event word always raises ReservedEvent, in
every phase and with or without a byte in flight. -/
def Obligations.ReservedEventsAreHostFaults : Prop :=
  ∀ (k : BitVec 3) (d : Byte) (s : State), s.wasReset = true →
    exec (.reservedKind k d) s = .next { s with fault := s.fault.or (some (.reservedEvent (mkEvent k d))) } ∧
    exec (.reservedData k d) s = .next { s with fault := s.fault.or (some (.reservedEvent (mkEvent k d))) }

/-- R157 ("how the model refuses a host-protocol violation"): with nothing in flight each of the four response forms
raises RespNoWrite and changes no register. -/
def Obligations.ResponseWithNothingInFlightIsHostFault : Prop :=
  ∀ s : State, s.wasReset = true → s.busy = false →
    exec .txOkHdr s = .next { s with fault := s.fault.or (some (.respNoWrite 0x300)) } ∧
    exec .txOkPay s = .next { s with fault := s.fault.or (some (.respNoWrite 0x300)) } ∧
    exec .txErrHdr s = .next { s with fault := s.fault.or (some (.respNoWrite 0x400)) } ∧
    exec .txErrPay s = .next { s with fault := s.fault.or (some (.respNoWrite 0x400)) }

/-- R31, R157: a recorded fault is never cleared or replaced, and while it is set a step changes the registers only by
RESET and emits nothing. -/
def Obligations.AFaultIsSticky : Prop :=
  ∀ (s t : State) (r : HostFault), s.fault = some r → step s = .next t →
    t.fault = some r ∧ t.trace = s.trace ∧
    (t = { s with schedule := t.schedule } ∨
      (s.schedule.head? = some lineReset ∧ exec .reset { s with schedule := t.schedule } = .next t))

/-- R31 ("no step other than the fault's own recording is defined from it"), log entry 6: a legal event other than
RESET stops the model while `fault` is set. -/
def Obligations.LegalEventInAFaultedStateStops : Prop :=
  ∀ (s : State) (w : EventWord) (rest : List Turn) (r : HostFault), s.wasReset = true → s.fault = some r →
    s.schedule = .event w :: rest → w ≠ 0x000 → violationOf s w = none → step s = .fault (.faulted r)

/-- R153, R154, R184: every host event is taken as it arrives, in every state without a fault that meets the
invariants, whatever its word. -/
def Obligations.EveryOfferedEventIsTaken : Prop :=
  ∀ (s : State) (w : EventWord) (rest : List Turn), StateInv s → s.fault = none → s.schedule = .event w :: rest →
    ∃ t, step s = .next t

/-- R82, R111, R31: the only stops from a state that meets the invariants: an engine turn while STEP is not enabled,
and a legal event while `fault` is set. -/
def Obligations.TheOnlyStops : Prop :=
  ∀ s : State, StateInv s →
    (∀ x, step s = .refused x → x = .stepNotEnabled ∧ s.schedule.head? = some .engine ∧ s.stepEnabled = false) ∧
    (∀ f, step s = .fault f → ∃ r, s.fault = some r ∧ f = .faulted r)

/-- The model's own stops, for terms that are no reaction in the state they meet. The forms of RX are selected by
`cnt` and `sending` (R100 to R103), those of a response by the phase (R114, R115, R132, R133), and STEP by R111 (R78,
R82); a form that is not selected and a STEP that is not enabled are refused (log entry 9, DESIGN CHOICE); RX at `cnt`
= 3 is read by R100's else branches (log entry 13, DEDUCED); R131 gives no header byte above index 3, where STEP.HDR
stops (log entry 10, DEDUCED). -/
def Obligations.FormsThatAreNotSelectedStop : Prop :=
  (∀ (s : State) (b : Byte), Accepting s →
    (2 ≤ s.cnt.toNat → exec (.rxAcc b) s = .refused .formNotSelected) ∧
    (s.cnt.toNat < 2 ∨ s.sending = false → exec (.cgPause b) s = .refused .formNotSelected) ∧
    (s.cnt.toNat < 2 ∨ s.sending = true → exec (.cgResume b) s = .refused .formNotSelected)) ∧
  (∀ s : State, Accepting s → s.busy = true →
    (s.phase ≠ .hdr → exec .txOkHdr s = .refused .formNotSelected ∧ exec .txErrHdr s = .refused .formNotSelected) ∧
    (s.phase ≠ .run → exec .txOkPay s = .refused .formNotSelected ∧ exec .txErrPay s = .refused .formNotSelected)) ∧
  (∀ s : State,
    (s.hdrEnabled = false → exec .stepHdr s = .refused .stepNotEnabled) ∧
    (s.payEnabled = false → exec .stepPay s = .refused .stepNotEnabled) ∧
    (s.hdrEnabled = true → 4 ≤ s.hidx.toNat → exec .stepHdr s = .fault (.noHeaderByte s.hidx)))

/-! ### The Flow-Control Decoder -/

/-- R100: RX(b) is enabled in every phase; its form is chosen by `cnt` and `sending`; it neither reads nor writes
`phase`, `hidx`, `busy`, `act` and `pos`, and leaves the parameters, `fault` and the trace alone; before the first
RESET it is a HostFault. -/
def Obligations.RxIsEnabledInEveryPhase : Prop :=
  ∀ (s : State) (b : Byte) (rest : List Turn), s.schedule = lineRx b :: rest →
    (Accepting s →
      step s = exec (if s.cnt.toNat < 2 then .rxAcc b else if s.sending then .cgPause b else .cgResume b)
        { s with schedule := rest } ∧
      ∃ t, step s = .next t ∧ t.par = s.par ∧ t.fault = s.fault ∧ t.trace = s.trace ∧ t.wasReset = s.wasReset ∧
        ∀ (p : Phase) (h : BitVec 3) (y a : Bool) (q : Nat),
          step { s with phase := p, hidx := h, busy := y, act := a, pos := q } =
            .next { t with phase := p, hidx := h, busy := y, act := a, pos := q }) ∧
    (s.wasReset = false → s.fault = none →
      step s = .next
        { s with fault := some (.eventBeforeReset (0x200 ||| b.setWidth 11)), schedule := rest })

/-- R101: RX.ACC. It writes `acc` and `cnt` and nothing else; `mod 2^24` never truncates while I1 holds; the first
byte gives b0 and the second b0*256 + b1. -/
def Obligations.RxAccShiftsTheByteIn : Prop :=
  ∀ (s : State) (b : Byte), Accepting s → s.cnt.toNat < 2 →
    decodeEvent s.sel (0x200 ||| b.setWidth 11) = .rxAcc b ∧
    ∃ a : Value, a.toNat = (s.acc.toNat * 256 + b.toNat) % 2 ^ 24 ∧
      exec (.rxAcc b) s = .next { s with acc := a, cnt := s.cnt + 1 } ∧
      (s.cnt + 1).toNat = s.cnt.toNat + 1 ∧
      (s.acc.toNat < 65536 → a.toNat = s.acc.toNat * 256 + b.toNat) ∧
      (s.acc = 0 → a.toNat = b.toNat)

/-- R102, R100: CG.PAUSE. Every control value pauses; it is discarded: `lreq`, `loff` and every engine register stay.
R102 takes `cnt` = 2; that `cnt` = 3, a value no run reaches, follows R100's else branches is DEDUCED (log entry 13).
-/
def Obligations.PauseGroupClearsSending : Prop :=
  ∀ (s : State) (b : Byte), Accepting s → 2 ≤ s.cnt.toNat → s.sending = true →
    decodeEvent s.sel (0x200 ||| b.setWidth 11) = .cgPause b ∧
    exec (.cgPause b) s = .next { s with sending := false, acc := 0, cnt := 0 }

/-- R103, R100: CG.RESUME. The control value is the Resume Offset, taken unchecked, in every phase; the launch request
replaces a pending one. R103 takes `cnt` = 2; that `cnt` = 3, a value no run reaches, follows R100's else branches is
DEDUCED (log entry 13). -/
def Obligations.ResumeGroupRequestsALaunch : Prop :=
  ∀ (s : State) (b : Byte), Accepting s → 2 ≤ s.cnt.toNat → s.sending = false →
    decodeEvent s.sel (0x200 ||| b.setWidth 11) = .cgResume b ∧
    exec (.cgResume b) s = .next
      { s with
        sending := true, loff := (s.acc.toNat * 256 + b.toNat) % 2 ^ 24, lreq := true, acc := 0, cnt := 0 }

/-- R73, R83: three bytes of a group make the control value, most significant byte first: `resume R` while paused
requests a launch at R, and any group while sending pauses; nothing else changes. -/
def Obligations.ThreeBytesMakeTheControlValue : Prop :=
  ∀ s : State, Accepting s → s.cnt = 0 →
    (∀ b0 b1 b2 : Byte, s.sending = false →
      runTurns (group b0 b1 b2) s = .next
        { s with
          sending := true, lreq := true, loff := b0.toNat * 65536 + b1.toNat * 256 + b2.toNat, acc := 0, cnt := 0,
          schedule := [] }) ∧
    (∀ r : Value, s.sending = false →
      runTurns (resumeGroup r) s = .next
        { s with sending := true, lreq := true, loff := r.toNat, acc := 0, cnt := 0, schedule := [] }) ∧
    (∀ b0 b1 b2 : Byte, s.sending = true →
      runTurns (group b0 b1 b2) s = .next { s with sending := false, acc := 0, cnt := 0, schedule := [] })

/-- R108 (an inference the spec marks as its own, from R102, R103 and R21): after k complete groups since the last
RESET, `sending` is 1 if k is even and 0 if k is odd, whatever else happens in between. -/
def Obligations.EachGroupTogglesSending : Prop :=
  ∀ (ts : List Turn) (s t : State), runTurns (lineReset :: ts) s = .next t →
    t.sending = decide ((bytesAfterReset [] ts).length / 3 % 2 = 0)

/-- R104, R23, R81, R108: the decoder's registers (R20: `sending`, `cnt`, `acc`) depend only on the inbound bytes
since the last RESET: `cnt` counts the bytes of the incomplete group, `acc` spells them, and `sending` says whether
the complete groups are even in number (R108 is an inference the spec marks as its own), wherever chunks and other
events fall. -/
def Obligations.DecoderStateDependsOnTheBytesAlone : Prop :=
  ∀ (ts : List Turn) (s t : State), runTurns (lineReset :: ts) s = .next t →
    t.cnt.toNat = (bytesAfterReset [] ts).length % 3 ∧
    t.acc.toNat =
      bigEndian ((bytesAfterReset [] ts).drop ((bytesAfterReset [] ts).length / 3 * 3)) ∧
    t.sending = decide ((bytesAfterReset [] ts).length / 3 % 2 = 0)

/-- R21, R38: only the completion of a control group, and RESET, write `sending`. -/
def Obligations.OnlyGroupCompletionWritesSending : Prop :=
  ∀ s t : State, step s = .next t → t.sending ≠ s.sending →
    s.schedule.head? = some lineReset ∨ (2 ≤ s.cnt.toNat ∧ ∃ b, s.schedule.head? = some (lineRx b))

/-- R107, R65: an RX event and the answer to the byte in flight may come in either order, with the same result. -/
def Obligations.RxAndResponseCommute : Prop :=
  ∀ (s : State) (b : Byte) (resp : Turn), Accepting s → s.busy = true → s.phase = .hdr ∨ s.phase = .run →
    resp = lineOk ∨ resp = lineErr →
    ∃ t, runTurns [lineRx b, resp] s = .next t ∧ runTurns [resp, lineRx b] s = .next t

/-! ### The Header Encoder -/

/-- R130: START in IDLE begins the header and requests a launch at 0, replacing a pending request; the decoder's state
carries over; in any other phase it is StartNotIdle. -/
def Obligations.StartBeginsTheTransfer : Prop :=
  ∀ s : State, s.wasReset = true →
    decodeEvent s.sel 0x100 = .start ∧
    (s.phase = .idle → s.fault = none →
      exec .start s = .next { s with phase := .hdr, hidx := 0, loff := 0, lreq := true } ∧
      ({ s with phase := .hdr, hidx := 0, loff := 0, lreq := true } : State).stepEnabled = !s.busy) ∧
    (s.phase ≠ .idle → exec .start s = .next { s with fault := s.fault.or (some (.startNotIdle s.phase)) })

/-- R131, R75: STEP.HDR emits header byte `hidx` of [ID_BYTE, N[23:16], N[15:8], N[7:0]] and sets `busy`; nothing else
changes. -/
def Obligations.StepHdrEmitsTheHeaderByte : Prop :=
  ∀ s : State, Accepting s → s.busy = false → s.phase = .hdr → s.hidx.toNat ≤ 3 →
    decodeTurn s.sel .engine = .stepHdr ∧
    ∃ b : Byte, exec .stepHdr s = .next { s with trace := s.trace ++ [.tx b], busy := true } ∧
      (s.hidx = 0 → b = s.par.idByte) ∧
      (s.hidx = 1 → b.toNat = s.par.payload.size / 65536 % 256) ∧
      (s.hidx = 2 → b.toNat = s.par.payload.size / 256 % 256) ∧
      (s.hidx = 3 → b.toNat = s.par.payload.size % 256)

/-- R132: TX_OK in HDR. The fourth drain opens phase RUN; with nothing in flight it is RespNoWrite. -/
def Obligations.HeaderDrainAdvancesTheHeader : Prop :=
  ∀ s : State, s.wasReset = true → s.phase = .hdr →
    decodeEvent s.sel 0x300 = .txOkHdr ∧
    (s.fault = none → s.busy = true →
      exec .txOkHdr s = .next
        { s with busy := false, hidx := s.hidx + 1, phase := if s.hidx + 1 = 4 then .run else .hdr }) ∧
    (s.busy = false → exec .txOkHdr s = .next { s with fault := s.fault.or (some (.respNoWrite 0x300)) })

/-- R133 ("This rule is the spec's own choice"): TX_ERR in HDR reports WERR(HDR, hidx) and goes to FAIL; `hidx`,
`lreq` and `loff` stay; with nothing in flight it is RespNoWrite. -/
def Obligations.HeaderErrorFailsTheTransfer : Prop :=
  ∀ s : State, s.wasReset = true → s.phase = .hdr →
    decodeEvent s.sel 0x400 = .txErrHdr ∧
    (s.fault = none → s.busy = true →
      exec .txErrHdr s = .next
        { s with busy := false, trace := s.trace ++ [.werr .hdr s.hidx.toNat], phase := .fail }) ∧
    (s.busy = false → exec .txErrHdr s = .next { s with fault := s.fault.or (some (.respNoWrite 0x400)) })

/-- R136 (an inference the spec marks as its own, from R130 to R134): `reset`, `start` and four `xfer` lines, with any
RX events among them, emit exactly the four header bytes, for every ID_BYTE and every N up to 16,777,215, and leave
the engine in RUN with nothing in flight. -/
def Obligations.HeaderLaw : Prop :=
  ∀ (s : State) (ts : List Turn), s.fault = none → s.par.payload.size ≤ 16777215 →
    ts.filter (fun t => !t.isRx) = lineStart :: headerLines →
    ∃ (t : State) (hi mid lo : Byte), runTurns (lineReset :: ts) s = .next t ∧
      t.trace = s.trace ++ [.tx s.par.idByte, .tx hi, .tx mid, .tx lo] ∧
      s.par.payload.size = hi.toNat * 65536 + mid.toNat * 256 + lo.toNat ∧
      t.phase = .run ∧ t.hidx = 4 ∧ t.busy = false ∧ t.fault = none

/-- R135: the length field is N mod 2^24, for every N, and differs from N exactly when N is above 16,777,215. -/
def Obligations.HeaderLengthIsTruncated : Prop :=
  ∀ (idByte : Byte) (n : Nat),
    (headerBytes idByte n).head? = some idByte ∧
    bigEndian (headerBytes idByte n).tail = n % 2 ^ 24 ∧
    (bigEndian (headerBytes idByte n).tail ≠ n ↔ 16777215 < n)

/-- R134, R192: Send State does not gate the header: with `sending` set either way, STEP.HDR and the drain of a header
byte do the same. -/
def Obligations.HeaderIgnoresSendState : Prop :=
  ∀ (s u : State) (x : Bool),
    (exec .stepHdr s = .next u → exec .stepHdr { s with sending := x } = .next { u with sending := x }) ∧
    (exec .txOkHdr s = .next u → exec .txOkHdr { s with sending := x } = .next { u with sending := x })

/-- R24, R133: FAIL is terminal until RESET: RX bytes are still decoded, but nothing is emitted and no STEP is
enabled. -/
def Obligations.FailIsTerminalUntilReset : Prop :=
  ∀ s t : State, s.phase = .fail → step s = .next t →
    s.stepEnabled = false ∧ (s.schedule.head? = some lineReset ∨ (t.phase = .fail ∧ t.trace = s.trace))

/-- R24, R130, R132, R133, R180: the only moves between phases. -/
def Obligations.PhaseMoves : Prop :=
  ∀ s t : State, step s = .next t → t.phase ≠ s.phase →
    (s.phase = .idle ∧ t.phase = .hdr ∧ s.schedule.head? = some lineStart) ∨
    (s.phase = .hdr ∧ t.phase = .run ∧ s.hidx = 3 ∧ s.busy = true ∧ s.schedule.head? = some lineOk) ∨
    (s.phase = .hdr ∧ t.phase = .fail ∧ s.busy = true ∧ s.schedule.head? = some lineErr) ∨
    (t.phase = .idle ∧ s.schedule.head? = some lineReset)

/-! ### The Byte Streamer -/

/-- R111: STEP is enabled exactly under its condition, and a turn of the engine happens exactly then; elsewhere the
line cannot be written (R82), which the model refuses (log entry 9, DESIGN CHOICE). -/
def Obligations.StepHappensExactlyWhenEnabled : Prop :=
  ∀ (s : State) (rest : List Turn), StateInv s → s.schedule = .engine :: rest →
    (s.stepEnabled = true ↔
      s.fault = none ∧ s.busy = false ∧
        (s.phase = .hdr ∨ (s.phase = .run ∧ (s.lreq = true ∨ s.act = true)))) ∧
    ((∃ t, step s = .next t) ↔ s.stepEnabled = true)

/-- R112: STEP.PAY. A pending launch request is taken first; the end of the buffer is tested before Send State; the
byte written is PAYLOAD at the cursor; nothing else changes. -/
def Obligations.StepPayTakesTheNextAction : Prop :=
  ∀ s : State, Accepting s → s.busy = false → s.phase = .run → s.lreq = true ∨ s.act = true →
    decodeTurn s.sel .engine = .stepPay ∧
    ∃ p : Nat, p = (if s.lreq then s.loff else s.pos) ∧
      (s.par.payload.size ≤ p →
        exec .stepPay s = .next { s with pos := p, lreq := false, act := false, trace := s.trace ++ [.done] }) ∧
      (p < s.par.payload.size → s.sending = false →
        exec .stepPay s = .next { s with pos := p, lreq := false, act := false }) ∧
      (p < s.par.payload.size → s.sending = true →
        ∃ b, s.par.payload.read p = some b ∧
          exec .stepPay s = .next
            { s with pos := p, lreq := false, act := true, trace := s.trace ++ [.tx b], busy := true })

/-- R114: TX_OK in RUN; `act` stays 1 where it was, and with nothing in flight it is RespNoWrite. -/
def Obligations.PayloadDrainAdvancesTheCursor : Prop :=
  ∀ s : State, s.wasReset = true → s.phase = .run →
    decodeEvent s.sel 0x300 = .txOkPay ∧
    (s.fault = none → s.busy = true →
      exec .txOkPay s = .next { s with busy := false, pos := s.pos + 1 } ∧
      (s.act = true → ({ s with busy := false, pos := s.pos + 1 } : State).stepEnabled = true)) ∧
    (s.busy = false → exec .txOkPay s = .next { s with fault := s.fault.or (some (.respNoWrite 0x300)) })

/-- R115: TX_ERR in RUN reports WERR(PAY, pos) and ends the invocation; `pos` and a pending launch request stay; with
nothing in flight it is RespNoWrite. -/
def Obligations.PayloadErrorEndsTheInvocation : Prop :=
  ∀ s : State, s.wasReset = true → s.phase = .run →
    decodeEvent s.sel 0x400 = .txErrPay ∧
    (s.fault = none → s.busy = true →
      exec .txErrPay s = .next
        { s with busy := false, act := false, trace := s.trace ++ [.werr .pay s.pos] } ∧
      ({ s with busy := false, act := false, trace := s.trace ++ [.werr .pay s.pos] } : State).stepEnabled
        = s.lreq) ∧
    (s.busy = false → exec .txErrPay s = .next { s with fault := s.fault.or (some (.respNoWrite 0x400)) })

/-- R118 (an inference the spec marks as its own, from R112 and R114): an invocation launched at offset R that is not
superseded, stopped or failed emits PAYLOAD[R] .. PAYLOAD[N-1] in order, each drained before the next, and then one
DONE. Inbound bytes that complete no group may fall anywhere among its lines; R at or above N gives DONE alone. -/
def Obligations.InvocationEmitsTheTailThenDone : Prop :=
  ∀ (s : State) (ts : List Turn), Accepting s → s.phase = .run → s.busy = false → s.sending = true →
    s.lreq = true →
    ts.filter (fun t => !t.isRx) =
      (List.replicate (s.par.payload.size - s.loff) xfer).flatten ++ [lineStep] →
    s.cnt.toNat + (ts.filter Turn.isRx).length < 3 →
    ∃ t : State, runTurns ts s = .next t ∧
      t.trace = s.trace ++ (payloadFrom s s.loff).map .tx ++ [.done] ∧
      t.pos = max s.loff s.par.payload.size ∧ t.act = false ∧ t.lreq = false ∧ t.busy = false

/-- R64, R112, R51, R187: a byte is written only with nothing in flight, and it is then in flight; it is header byte
`hidx`, or the payload byte at the index the step looks at, read below N while `sending` is 1 (R117, an inference the
spec marks as its own from R102, R103 and R112). -/
def Obligations.BytesAreWrittenOnlyWhenFreeAndSending : Prop :=
  ∀ (s t : State) (b : Byte), step s = .next t → t.trace = s.trace ++ [.tx b] →
    s.busy = false ∧ t.busy = true ∧
    ((s.phase = .hdr ∧ (headerBytes s.par.idByte s.par.payload.size)[s.hidx.toNat]? = some b) ∨
      (s.phase = .run ∧ s.sending = true ∧ t.act = true ∧ t.pos = s.streamIndex ∧
        s.par.payload.read s.streamIndex = some b))

/-- R155, R156: a reaction reports at most one outcome, and which one it may report. -/
def Obligations.OneOutcomeAReaction : Prop :=
  ∀ s t : State, step s = .next t →
    (t.trace = s.trace ∨ ∃ o, t.trace = s.trace ++ [o]) ∧
    (∀ b, t.trace = s.trace ++ [.tx b] → t.fault = s.fault ∧ s.schedule.head? ∈ [none, some .engine]) ∧
    (t.trace = s.trace ++ [.done] → t.fault = s.fault ∧ s.schedule.head? ∈ [none, some .engine]) ∧
    (∀ src i, t.trace = s.trace ++ [.werr src i] →
      t.fault = s.fault ∧ s.schedule.head? = some lineErr ∧ s.busy = true ∧
        ((src = .pay ∧ i = s.pos ∧ s.phase = .run) ∨ (src = .hdr ∧ i = s.hidx.toNat ∧ s.phase = .hdr)))

/-- R116: DONE is emitted only by a payload step that finds the end of the buffer, which ends the invocation: with no
launch request pending no STEP is enabled after it, so it is not emitted again for it. -/
def Obligations.DoneEndsTheInvocation : Prop :=
  ∀ s t : State, step s = .next t → t.trace = s.trace ++ [.done] →
    s.phase = .run ∧ s.busy = false ∧ s.par.payload.size ≤ s.streamIndex ∧
      t.act = false ∧ t.lreq = false ∧ t.busy = false ∧ t.pos = s.streamIndex ∧ t.stepEnabled = false

/-- R117, R189 (inferences the spec marks as its own): after a pause group completes, no payload byte is written until
a resume group completes, in every order of reactions without RESET. -/
def Obligations.APausedEngineWritesNoPayload : Prop :=
  ∀ (ts : List Turn) (s t : State), s.phase = .run → s.sending = false → lineReset ∉ ts →
    s.cnt.toNat + (ts.filter Turn.isRx).length < 3 → runTurns ts s = .next t →
    outboundBytes t.trace = outboundBytes s.trace

/-- R113, R119: after an invocation has ended with nothing in flight and no request pending, nothing at all is emitted
until a new launch request is set: while paused that takes a group, while sending two. -/
def Obligations.AnEndedInvocationIsSilent : Prop :=
  ∀ (ts : List Turn) (s t : State), s.phase = .run → s.busy = false → s.act = false → s.lreq = false →
    lineReset ∉ ts →
    s.cnt.toNat + (ts.filter Turn.isRx).length < (if s.sending then 6 else 3) → runTurns ts s = .next t →
    t.trace = s.trace ∧ t.act = false ∧ t.busy = false ∧ t.lreq = false

/-- R188, R103: a resume that completes while a byte is in flight starts no second stream: STEP stays disabled until
the byte is answered, and the next STEP launches at the new offset and supersedes the old invocation. That a turn of
the engine while STEP is disabled is refused as stepNotEnabled is the model's own way to say that the line cannot be
written (R82; log entry 9, DESIGN CHOICE). -/
def Obligations.ResumeInFlightSupersedes : Prop :=
  ∀ (s : State) (b : Byte) (resp : Turn) (v : Nat), Accepting s → s.phase = .run → s.busy = true →
    s.cnt = 2 → s.sending = false → resp = lineOk ∨ resp = lineErr →
    v = (s.acc.toNat * 256 + b.toNat) % 2 ^ 24 →
    runTurns [lineRx b, lineStep] s = .refused .stepNotEnabled ∧
    ∃ t, runTurns [lineRx b, resp, lineStep] s = .next t ∧ t.pos = v ∧ t.lreq = false ∧
      t.trace = s.trace ++ (if resp = lineErr then [.werr .pay s.pos] else []) ++
        (if v < s.par.payload.size then [.tx (s.payloadByte v)] else [.done])

/-- R190: the pause race. After a drain, a pause that completes before the next STEP keeps the next byte from being
written; a STEP that comes first writes it, and stops the stream only after it drains (with DONE if it was the last
byte, since the end of the buffer is tested first, R112). -/
def Obligations.PauseRaceAdmitsBothOrders : Prop :=
  ∀ (s : State) (b : Byte), Accepting s → s.phase = .run → s.busy = false → s.act = true → s.lreq = false →
    s.cnt = 2 → s.sending = true → s.pos < s.par.payload.size →
    (∃ t, runTurns [lineRx b, lineStep] s = .next t ∧ t.trace = s.trace ∧ t.act = false) ∧
    (∃ t, runTurns [lineStep, lineRx b, lineOk, lineStep] s = .next t ∧
      t.trace = s.trace ++ [.tx (s.payloadByte s.pos)] ++
        (if s.pos + 1 = s.par.payload.size then [.done] else []) ∧
      t.act = false ∧ t.sending = false)

/-- R158: after a payload write error the receiver recovers by groups: a PAUSE and a RESUME group if `sending` is 1, a
RESUME group alone if it is 0; the next STEP launches at the offset it asked for. -/
def Obligations.ReceiverRecoversAfterPayloadError : Prop :=
  ∀ (s : State) (b0 b1 b2 : Byte) (r : Value), Accepting s → s.phase = .run → s.busy = true → s.lreq = false →
    s.cnt = 0 →
    ∃ t, runTurns
        ([lineErr] ++ (if s.sending then group b0 b1 b2 else []) ++ resumeGroup r ++ [lineStep]) s = .next t ∧
      t.pos = r.toNat ∧
      t.trace = s.trace ++ [.werr .pay s.pos] ++
        (if r.toNat < s.par.payload.size then [.tx (s.payloadByte r.toNat)] else [.done])

/-- R51, R112: the payload's content reaches nothing but the bytes of payload TX events: with other bytes in a buffer
of the same length, every run reaches the same registers and the same STATUS, and the two traces agree at every
position (every DONE, every WERR with its index, every header byte) but those where the run writes a payload byte,
which hold a TX event in both. -/
def Obligations.PayloadContentReachesOnlyTxBytes : Prop :=
  ∀ (ts : List Turn) (s t : State) (cs : List Host.Cell), runTurns ts s = .next t →
    ∃ t', runTurns ts
        { s with par := { s.par with payload := { size := s.par.payload.size, cells := cs } } } = .next t' ∧
      t' = { t with par := t'.par, trace := t'.trace } ∧ t'.status = t.status ∧
      t'.trace.length = t.trace.length ∧
      (∀ k, k ∉ payloadPositions ts s → t'.trace[k]? = t.trace[k]?) ∧
      (∀ k ∈ payloadPositions ts s, ∃ b b', t.trace[k]? = some (.tx b) ∧ t'.trace[k]? = some (.tx b'))

/-! ### The machine -/

/-- R57, R62, R82: a step is the reaction of the schedule's next line, decoded in the state it happens in; for a
well-formed reaction that the registers select, it is exec of that reaction. -/
def Obligations.AStepRunsTheDecodedReaction : Prop :=
  ∀ (s : State) (rest : List Turn),
    (∀ t, s.schedule = t :: rest → step s = exec (decodeTurn s.sel t) { s with schedule := rest }) ∧
    (∀ i : Instr, i.wellFormed = true → i.selectedBy s.sel = true → s.schedule = encode i :: rest →
      step s = exec i { s with schedule := rest })

/-- R111 (fairness), R164, R195; log entries 4, 5 and 15: with nothing offered the engine takes an enabled STEP, and
otherwise the block waits, which is no fault; it waits for ever exactly in such a state, at a complete end of a run
and at a stalled one alike. -/
def Obligations.WithNothingOfferedTheEngineMovesOrWaits : Prop :=
  ∀ s : State, s.schedule = [] →
    (s.stepEnabled = true → step s = exec (decodeTurn s.sel .engine) s) ∧
    (s.stepEnabled = false → step s = .next s) ∧
    (Complete s = true ∨ Stalled s = true → step s = .next s) ∧
    (StateInv s → (step s = .next s ↔ s.stepEnabled = false))

/-- R33 (a layout that is "this spec's choice"): the STATUS view: its layout, 0x001 after RESET, bit 11 reads 0, and
the values CNT and HIDX never read. -/
def Obligations.StatusViewLayout : Prop :=
  (∀ s : State, s.status.toNat =
    s.sending.toNat + 2 * s.cnt.toNat + 8 * (phaseCode s.phase).toNat + 32 * s.busy.toNat + 64 * s.act.toNat +
      128 * s.lreq.toNat + 256 * s.hidx.toNat) ∧
  (∀ s : State, s.status.getLsbD 11 = false) ∧
  ((phaseCode .idle).toNat = 0 ∧ (phaseCode .hdr).toNat = 1 ∧ (phaseCode .run).toNat = 2 ∧
    (phaseCode .fail).toNat = 3) ∧
  (∀ s t : State, exec .reset s = .next t → t.status = 0x001) ∧
  (∀ s : State, StateInv s → s.status.extractLsb' 1 2 ≠ 3 ∧ (s.status.extractLsb' 8 3).toNat ≤ 4)

/-- R164; log entry 15 (DEDUCED, where R164 and R195 meet): the wait state. A run that waits for ever paused is a
quiescent end of run that is neither complete nor faulted, and all state survives the wait. Paused, the engine of a
phase RUN writes nothing. Only a resume group sets `sending` again, RESET ends the pause, and START alone adds a
launch request without waking it. The second wait, for a TX response, is no end of run at all. -/
def Obligations.APausedRunWaitsForAResume : Prop :=
  ∀ s : State,
    (Stalled s = true → step s = .next s ∧ Quiescent s = true ∧ Complete s = false ∧ Faulted s = false) ∧
    (∀ t, Paused s = true → step s = .next t →
      (s.phase = .run → outboundBytes t.trace = outboundBytes s.trace) ∧
      (Paused t = true ∨ s.schedule.head? = some lineReset ∨
        (s.phase = .idle ∧ s.schedule.head? = some lineStart ∧ t.sending = false) ∨
        (2 ≤ s.cnt.toNat ∧ (∃ b, s.schedule.head? = some (lineRx b)) ∧ t.sending = true ∧ t.lreq = true))) ∧
    (∀ (b : Byte) (rest : List Turn), Accepting s → Paused s = true → s.cnt = 2 → s.schedule = lineRx b :: rest →
      ∃ t, step s = .next t ∧ Paused t = false ∧ t.sending = true ∧
        (s.phase = .run → s.busy = false → t.stepEnabled = true)) ∧
    (∀ t, exec .reset s = .next t → Paused t = false) ∧
    (s.busy = true → s.schedule = [] → step s = .next s ∧ Quiescent s = false ∧ Complete s = false)

/-- R196, R185 (HD-f: "keep N ≤ 16,777,215, or accept the truncated header"), D22: RESET of a state without a fault
and with parameters that keep R8 gives the clean launch state, whatever N is; from it START and the header's lines,
with any RX events among them, emit the four header bytes, whose length field is N mod 2^24 (R135), and leave N as it
was. The law is R136's (an inference the spec marks as its own) without its bound on N. -/
def Obligations.CleanLaunchSendsTheHeaderForEveryN : Prop :=
  (∀ s : State, s.fault = none → s.par.ok = true → ∃ t, exec .reset s = .next t ∧ CleanLaunch t) ∧
  ∀ (s : State) (ts : List Turn), CleanLaunch s → ts.filter (fun t => !t.isRx) = lineStart :: headerLines →
    ∃ (t : State) (hi mid lo : Byte), runTurns ts s = .next t ∧
      t.trace = s.trace ++ [.tx s.par.idByte, .tx hi, .tx mid, .tx lo] ∧
      s.par.payload.size % 2 ^ 24 = hi.toNat * 65536 + mid.toNat * 256 + lo.toNat ∧
      t.par = s.par ∧ t.phase = .run ∧ t.hidx = 4 ∧ t.busy = false ∧ t.lreq = true ∧ t.fault = none

end
end

