-- ==== Sys2Proof/Laws/Decode.lean ====
section
/-! SUPPORT. The fields of an event word, what each word decodes to, and the classification of all event words. -/

namespace Sys2Proof

@[simp] theorem eventKind_mkEvent (k : BitVec 3) (d : Byte) : eventKind (mkEvent k d) = k := by
  apply BitVec.eq_of_getLsbD_eq
  intro i hi
  simp only [eventKind, mkEvent, BitVec.getLsbD_extractLsb', BitVec.getLsbD_append]
  simp [hi]

@[simp] theorem eventData_mkEvent (k : BitVec 3) (d : Byte) : eventData (mkEvent k d) = d := by
  apply BitVec.eq_of_getLsbD_eq
  intro i hi
  simp only [eventData, mkEvent, BitVec.getLsbD_extractLsb', BitVec.getLsbD_append]
  simp [hi]

@[simp] theorem mkEvent_fields (w : EventWord) : mkEvent (eventKind w) (eventData w) = w := by
  apply BitVec.eq_of_getLsbD_eq
  intro i hi
  simp only [eventData, eventKind, mkEvent, BitVec.getLsbD_append, BitVec.getLsbD_extractLsb']
  by_cases h : i < 8
  · simp [h]
  · simp [h, show i - 8 < 3 by omega, show 8 + (i - 8) = i by omega]

theorem mkEvent_inj {k k' : BitVec 3} {d d' : Byte} : mkEvent k d = mkEvent k' d' ↔ k = k' ∧ d = d' := by
  constructor
  · intro h
    exact ⟨by simpa using congrArg eventKind h, by simpa using congrArg eventData h⟩
  · rintro ⟨rfl, rfl⟩; rfl

theorem mkEvent_toNat (k : BitVec 3) (d : Byte) : (mkEvent k d).toNat = k.toNat * 256 + d.toNat := by
  have h : d.toNat < 2 ^ 8 := d.isLt
  simp only [mkEvent, BitVec.toNat_append]
  rw [← Nat.shiftLeft_add_eq_or_of_lt h, Nat.shiftLeft_eq]

/-- The words of R77 are those of the encoder. -/
@[simp] theorem lineReset_eq : lineReset = .event (mkEvent 0 0) := by decide
@[simp] theorem lineStart_eq : lineStart = .event (mkEvent 1 0) := by decide
@[simp] theorem lineOk_eq : lineOk = .event (mkEvent 3 0) := by decide
@[simp] theorem lineErr_eq : lineErr = .event (mkEvent 4 0) := by decide
@[simp] theorem lineRx_eq (b : Byte) : lineRx b = .event (mkEvent 2 b) := by
  simp only [lineRx, mkEvent, Turn.event.injEq]
  apply BitVec.eq_of_getLsbD_eq
  intro i hi
  rw [BitVec.getLsbD_or, BitVec.getLsbD_append, BitVec.getLsbD_setWidth]
  by_cases h : i < 8
  · have : (0x200 : BitVec 11).getLsbD i = false := by
      revert h; revert i; decide
    simp only [this, h, hi]
    simp
  · have hi' : i = 8 ∨ i = 9 ∨ i = 10 := by omega
    obtain rfl | rfl | rfl := hi' <;> simp

theorem kind_cases (k : BitVec 3) :
    k = 0 ∨ k = 1 ∨ k = 2 ∨ k = 3 ∨ k = 4 ∨ kindReserved k = true := by
  revert k; decide

theorem kindReserved_toNat {k : BitVec 3} (h : kindReserved k = true) : k = 5 ∨ k = 6 ∨ k = 7 := by
  revert h; revert k; decide

section
variable (v : Sel)

theorem decodeEvent_reset : decodeEvent v (mkEvent 0 0) = .reset := by simp [decodeEvent, decodeBare]
theorem decodeEvent_start : decodeEvent v (mkEvent 1 0) = .start := by simp [decodeEvent, decodeBare]
theorem decodeEvent_rx (b : Byte) : decodeEvent v (mkEvent 2 b) = decodeRx v b := by simp [decodeEvent]
theorem decodeEvent_ok :
    decodeEvent v (mkEvent 3 0) = if v.phase = .hdr then .txOkHdr else .txOkPay := by
  simp [decodeEvent, decodeBare]
theorem decodeEvent_err :
    decodeEvent v (mkEvent 4 0) = if v.phase = .hdr then .txErrHdr else .txErrPay := by
  simp [decodeEvent, decodeBare]

theorem decodeEvent_reservedKind {k : BitVec 3} (hk : kindReserved k = true) (d : Byte) :
    decodeEvent v (mkEvent k d) = .reservedKind k d := by
  obtain rfl | rfl | rfl := kindReserved_toNat hk <;> simp [decodeEvent]

theorem decodeEvent_reservedData {k : BitVec 3} (hk : kindBare k = true) {d : Byte} (hd : d ≠ 0) :
    decodeEvent v (mkEvent k d) = .reservedData k d := by
  simp only [kindBare, Bool.or_eq_true, decide_eq_true_eq] at hk
  have hd' : (d = 0) = False := eq_false hd
  obtain ((rfl | rfl) | rfl) | rfl := hk <;>
    simp only [decodeEvent, decodeBare, eventKind_mkEvent, eventData_mkEvent, hd', if_false] <;> rfl

end

/-- Every event word is one of the table's rows. -/
theorem eventWord_cases (w : EventWord) :
    w = mkEvent 0 0 ∨ w = mkEvent 1 0 ∨ (∃ b, w = mkEvent 2 b) ∨ w = mkEvent 3 0 ∨ w = mkEvent 4 0 ∨
      (∃ k d, w = mkEvent k d ∧ kindReserved k = true) ∨
      (∃ k d, w = mkEvent k d ∧ kindBare k = true ∧ d ≠ 0) := by
  by_cases hd : eventData w = 0
  · obtain h | h | h | h | h | h := kind_cases (eventKind w)
    · exact .inl (by rw [← mkEvent_fields w, h, hd])
    · exact .inr (.inl (by rw [← mkEvent_fields w, h, hd]))
    · exact .inr (.inr (.inl ⟨eventData w, by rw [← h, mkEvent_fields]⟩))
    · exact .inr (.inr (.inr (.inl (by rw [← mkEvent_fields w, h, hd]))))
    · exact .inr (.inr (.inr (.inr (.inl (by rw [← mkEvent_fields w, h, hd])))))
    · exact .inr (.inr (.inr (.inr (.inr (.inl ⟨_, _, (mkEvent_fields w).symm, h⟩)))))
  · obtain h | h | h | h | h | h := kind_cases (eventKind w)
    · exact .inr (.inr (.inr (.inr (.inr (.inr ⟨_, _, (mkEvent_fields w).symm, by simp [kindBare, h], hd⟩)))))
    · exact .inr (.inr (.inr (.inr (.inr (.inr ⟨_, _, (mkEvent_fields w).symm, by simp [kindBare, h], hd⟩)))))
    · exact .inr (.inr (.inl ⟨eventData w, by rw [← h, mkEvent_fields]⟩))
    · exact .inr (.inr (.inr (.inr (.inr (.inr ⟨_, _, (mkEvent_fields w).symm, by simp [kindBare, h], hd⟩)))))
    · exact .inr (.inr (.inr (.inr (.inr (.inr ⟨_, _, (mkEvent_fields w).symm, by simp [kindBare, h], hd⟩)))))
    · exact .inr (.inr (.inr (.inr (.inr (.inl ⟨_, _, (mkEvent_fields w).symm, h⟩)))))

end Sys2Proof
end

