-- ==== Sys2Proof/Laws/State.lean ====
section
/-! SUPPORT. One lemma per field per named update of State, so that no later proof unfolds a record update. -/

namespace Sys2Proof.Machine

variable (s : State)

/-! ### emit -/

@[simp] theorem State.emit_par (o : OutEvent) : (State.emit o s).par = s.par := rfl
@[simp] theorem State.emit_wasReset (o : OutEvent) : (State.emit o s).wasReset = s.wasReset := rfl
@[simp] theorem State.emit_sending (o : OutEvent) : (State.emit o s).sending = s.sending := rfl
@[simp] theorem State.emit_cnt (o : OutEvent) : (State.emit o s).cnt = s.cnt := rfl
@[simp] theorem State.emit_acc (o : OutEvent) : (State.emit o s).acc = s.acc := rfl
@[simp] theorem State.emit_phase (o : OutEvent) : (State.emit o s).phase = s.phase := rfl
@[simp] theorem State.emit_hidx (o : OutEvent) : (State.emit o s).hidx = s.hidx := rfl
@[simp] theorem State.emit_busy (o : OutEvent) : (State.emit o s).busy = s.busy := rfl
@[simp] theorem State.emit_act (o : OutEvent) : (State.emit o s).act = s.act := rfl
@[simp] theorem State.emit_pos (o : OutEvent) : (State.emit o s).pos = s.pos := rfl
@[simp] theorem State.emit_lreq (o : OutEvent) : (State.emit o s).lreq = s.lreq := rfl
@[simp] theorem State.emit_loff (o : OutEvent) : (State.emit o s).loff = s.loff := rfl
@[simp] theorem State.emit_fault (o : OutEvent) : (State.emit o s).fault = s.fault := rfl
@[simp] theorem State.emit_trace (o : OutEvent) : (State.emit o s).trace = s.trace ++ [o] := rfl
@[simp] theorem State.emit_schedule (o : OutEvent) : (State.emit o s).schedule = s.schedule := rfl

/-! ### writeByte -/

@[simp] theorem State.writeByte_par (b : Byte) : (State.writeByte b s).par = s.par := rfl
@[simp] theorem State.writeByte_wasReset (b : Byte) : (State.writeByte b s).wasReset = s.wasReset := rfl
@[simp] theorem State.writeByte_sending (b : Byte) : (State.writeByte b s).sending = s.sending := rfl
@[simp] theorem State.writeByte_cnt (b : Byte) : (State.writeByte b s).cnt = s.cnt := rfl
@[simp] theorem State.writeByte_acc (b : Byte) : (State.writeByte b s).acc = s.acc := rfl
@[simp] theorem State.writeByte_phase (b : Byte) : (State.writeByte b s).phase = s.phase := rfl
@[simp] theorem State.writeByte_hidx (b : Byte) : (State.writeByte b s).hidx = s.hidx := rfl
@[simp] theorem State.writeByte_busy (b : Byte) : (State.writeByte b s).busy = true := rfl
@[simp] theorem State.writeByte_act (b : Byte) : (State.writeByte b s).act = s.act := rfl
@[simp] theorem State.writeByte_pos (b : Byte) : (State.writeByte b s).pos = s.pos := rfl
@[simp] theorem State.writeByte_lreq (b : Byte) : (State.writeByte b s).lreq = s.lreq := rfl
@[simp] theorem State.writeByte_loff (b : Byte) : (State.writeByte b s).loff = s.loff := rfl
@[simp] theorem State.writeByte_fault (b : Byte) : (State.writeByte b s).fault = s.fault := rfl
@[simp] theorem State.writeByte_trace (b : Byte) : (State.writeByte b s).trace = s.trace ++ [.tx b] := rfl
@[simp] theorem State.writeByte_schedule (b : Byte) : (State.writeByte b s).schedule = s.schedule := rfl

/-! ### answer -/

@[simp] theorem State.answer_par : s.answer.par = s.par := rfl
@[simp] theorem State.answer_wasReset : s.answer.wasReset = s.wasReset := rfl
@[simp] theorem State.answer_sending : s.answer.sending = s.sending := rfl
@[simp] theorem State.answer_cnt : s.answer.cnt = s.cnt := rfl
@[simp] theorem State.answer_acc : s.answer.acc = s.acc := rfl
@[simp] theorem State.answer_phase : s.answer.phase = s.phase := rfl
@[simp] theorem State.answer_hidx : s.answer.hidx = s.hidx := rfl
@[simp] theorem State.answer_busy : s.answer.busy = false := rfl
@[simp] theorem State.answer_act : s.answer.act = s.act := rfl
@[simp] theorem State.answer_pos : s.answer.pos = s.pos := rfl
@[simp] theorem State.answer_lreq : s.answer.lreq = s.lreq := rfl
@[simp] theorem State.answer_loff : s.answer.loff = s.loff := rfl
@[simp] theorem State.answer_fault : s.answer.fault = s.fault := rfl
@[simp] theorem State.answer_trace : s.answer.trace = s.trace := rfl
@[simp] theorem State.answer_schedule : s.answer.schedule = s.schedule := rfl

/-! ### closeGroup -/

@[simp] theorem State.closeGroup_par : s.closeGroup.par = s.par := rfl
@[simp] theorem State.closeGroup_wasReset : s.closeGroup.wasReset = s.wasReset := rfl
@[simp] theorem State.closeGroup_sending : s.closeGroup.sending = s.sending := rfl
@[simp] theorem State.closeGroup_cnt : s.closeGroup.cnt = 0 := rfl
@[simp] theorem State.closeGroup_acc : s.closeGroup.acc = 0 := rfl
@[simp] theorem State.closeGroup_phase : s.closeGroup.phase = s.phase := rfl
@[simp] theorem State.closeGroup_hidx : s.closeGroup.hidx = s.hidx := rfl
@[simp] theorem State.closeGroup_busy : s.closeGroup.busy = s.busy := rfl
@[simp] theorem State.closeGroup_act : s.closeGroup.act = s.act := rfl
@[simp] theorem State.closeGroup_pos : s.closeGroup.pos = s.pos := rfl
@[simp] theorem State.closeGroup_lreq : s.closeGroup.lreq = s.lreq := rfl
@[simp] theorem State.closeGroup_loff : s.closeGroup.loff = s.loff := rfl
@[simp] theorem State.closeGroup_fault : s.closeGroup.fault = s.fault := rfl
@[simp] theorem State.closeGroup_trace : s.closeGroup.trace = s.trace := rfl
@[simp] theorem State.closeGroup_schedule : s.closeGroup.schedule = s.schedule := rfl

/-! ### requestLaunch -/

@[simp] theorem State.requestLaunch_par (off : Nat) : (State.requestLaunch off s).par = s.par := rfl
@[simp] theorem State.requestLaunch_wasReset (off : Nat) : (State.requestLaunch off s).wasReset = s.wasReset := rfl
@[simp] theorem State.requestLaunch_sending (off : Nat) : (State.requestLaunch off s).sending = s.sending := rfl
@[simp] theorem State.requestLaunch_cnt (off : Nat) : (State.requestLaunch off s).cnt = s.cnt := rfl
@[simp] theorem State.requestLaunch_acc (off : Nat) : (State.requestLaunch off s).acc = s.acc := rfl
@[simp] theorem State.requestLaunch_phase (off : Nat) : (State.requestLaunch off s).phase = s.phase := rfl
@[simp] theorem State.requestLaunch_hidx (off : Nat) : (State.requestLaunch off s).hidx = s.hidx := rfl
@[simp] theorem State.requestLaunch_busy (off : Nat) : (State.requestLaunch off s).busy = s.busy := rfl
@[simp] theorem State.requestLaunch_act (off : Nat) : (State.requestLaunch off s).act = s.act := rfl
@[simp] theorem State.requestLaunch_pos (off : Nat) : (State.requestLaunch off s).pos = s.pos := rfl
@[simp] theorem State.requestLaunch_lreq (off : Nat) : (State.requestLaunch off s).lreq = true := rfl
@[simp] theorem State.requestLaunch_loff (off : Nat) : (State.requestLaunch off s).loff = off := rfl
@[simp] theorem State.requestLaunch_fault (off : Nat) : (State.requestLaunch off s).fault = s.fault := rfl
@[simp] theorem State.requestLaunch_trace (off : Nat) : (State.requestLaunch off s).trace = s.trace := rfl
@[simp] theorem State.requestLaunch_schedule (off : Nat) : (State.requestLaunch off s).schedule = s.schedule := rfl

/-! ### pauseSending -/

@[simp] theorem State.pauseSending_par : s.pauseSending.par = s.par := rfl
@[simp] theorem State.pauseSending_wasReset : s.pauseSending.wasReset = s.wasReset := rfl
@[simp] theorem State.pauseSending_sending : s.pauseSending.sending = false := rfl
@[simp] theorem State.pauseSending_cnt : s.pauseSending.cnt = s.cnt := rfl
@[simp] theorem State.pauseSending_acc : s.pauseSending.acc = s.acc := rfl
@[simp] theorem State.pauseSending_phase : s.pauseSending.phase = s.phase := rfl
@[simp] theorem State.pauseSending_hidx : s.pauseSending.hidx = s.hidx := rfl
@[simp] theorem State.pauseSending_busy : s.pauseSending.busy = s.busy := rfl
@[simp] theorem State.pauseSending_act : s.pauseSending.act = s.act := rfl
@[simp] theorem State.pauseSending_pos : s.pauseSending.pos = s.pos := rfl
@[simp] theorem State.pauseSending_lreq : s.pauseSending.lreq = s.lreq := rfl
@[simp] theorem State.pauseSending_loff : s.pauseSending.loff = s.loff := rfl
@[simp] theorem State.pauseSending_fault : s.pauseSending.fault = s.fault := rfl
@[simp] theorem State.pauseSending_trace : s.pauseSending.trace = s.trace := rfl
@[simp] theorem State.pauseSending_schedule : s.pauseSending.schedule = s.schedule := rfl

/-! ### resumeSending -/

@[simp] theorem State.resumeSending_par : s.resumeSending.par = s.par := rfl
@[simp] theorem State.resumeSending_wasReset : s.resumeSending.wasReset = s.wasReset := rfl
@[simp] theorem State.resumeSending_sending : s.resumeSending.sending = true := rfl
@[simp] theorem State.resumeSending_cnt : s.resumeSending.cnt = s.cnt := rfl
@[simp] theorem State.resumeSending_acc : s.resumeSending.acc = s.acc := rfl
@[simp] theorem State.resumeSending_phase : s.resumeSending.phase = s.phase := rfl
@[simp] theorem State.resumeSending_hidx : s.resumeSending.hidx = s.hidx := rfl
@[simp] theorem State.resumeSending_busy : s.resumeSending.busy = s.busy := rfl
@[simp] theorem State.resumeSending_act : s.resumeSending.act = s.act := rfl
@[simp] theorem State.resumeSending_pos : s.resumeSending.pos = s.pos := rfl
@[simp] theorem State.resumeSending_lreq : s.resumeSending.lreq = s.lreq := rfl
@[simp] theorem State.resumeSending_loff : s.resumeSending.loff = s.loff := rfl
@[simp] theorem State.resumeSending_fault : s.resumeSending.fault = s.fault := rfl
@[simp] theorem State.resumeSending_trace : s.resumeSending.trace = s.trace := rfl
@[simp] theorem State.resumeSending_schedule : s.resumeSending.schedule = s.schedule := rfl

/-! ### clearRegisters -/

@[simp] theorem State.clearRegisters_par : s.clearRegisters.par = s.par := rfl
@[simp] theorem State.clearRegisters_wasReset : s.clearRegisters.wasReset = true := rfl
@[simp] theorem State.clearRegisters_sending : s.clearRegisters.sending = true := rfl
@[simp] theorem State.clearRegisters_cnt : s.clearRegisters.cnt = 0 := rfl
@[simp] theorem State.clearRegisters_acc : s.clearRegisters.acc = 0 := rfl
@[simp] theorem State.clearRegisters_phase : s.clearRegisters.phase = .idle := rfl
@[simp] theorem State.clearRegisters_hidx : s.clearRegisters.hidx = 0 := rfl
@[simp] theorem State.clearRegisters_busy : s.clearRegisters.busy = false := rfl
@[simp] theorem State.clearRegisters_act : s.clearRegisters.act = false := rfl
@[simp] theorem State.clearRegisters_pos : s.clearRegisters.pos = 0 := rfl
@[simp] theorem State.clearRegisters_lreq : s.clearRegisters.lreq = false := rfl
@[simp] theorem State.clearRegisters_loff : s.clearRegisters.loff = 0 := rfl
@[simp] theorem State.clearRegisters_fault : s.clearRegisters.fault = s.fault := rfl
@[simp] theorem State.clearRegisters_trace : s.clearRegisters.trace = s.trace := rfl
@[simp] theorem State.clearRegisters_schedule : s.clearRegisters.schedule = s.schedule := rfl

/-! ### takeLaunch -/

@[simp] theorem State.takeLaunch_par : s.takeLaunch.par = s.par := by
  unfold takeLaunch; split <;> rfl
@[simp] theorem State.takeLaunch_wasReset : s.takeLaunch.wasReset = s.wasReset := by
  unfold takeLaunch; split <;> rfl
@[simp] theorem State.takeLaunch_sending : s.takeLaunch.sending = s.sending := by
  unfold takeLaunch; split <;> rfl
@[simp] theorem State.takeLaunch_cnt : s.takeLaunch.cnt = s.cnt := by
  unfold takeLaunch; split <;> rfl
@[simp] theorem State.takeLaunch_acc : s.takeLaunch.acc = s.acc := by
  unfold takeLaunch; split <;> rfl
@[simp] theorem State.takeLaunch_phase : s.takeLaunch.phase = s.phase := by
  unfold takeLaunch; split <;> rfl
@[simp] theorem State.takeLaunch_hidx : s.takeLaunch.hidx = s.hidx := by
  unfold takeLaunch; split <;> rfl
@[simp] theorem State.takeLaunch_busy : s.takeLaunch.busy = s.busy := by
  unfold takeLaunch; split <;> rfl
@[simp] theorem State.takeLaunch_act : s.takeLaunch.act = (s.lreq || s.act) := by
  unfold takeLaunch; split <;> simp_all
@[simp] theorem State.takeLaunch_pos : s.takeLaunch.pos = if s.lreq then s.loff else s.pos := by
  unfold takeLaunch; split <;> rfl
@[simp] theorem State.takeLaunch_lreq : s.takeLaunch.lreq = false := by
  unfold takeLaunch; split <;> simp_all
@[simp] theorem State.takeLaunch_loff : s.takeLaunch.loff = s.loff := by
  unfold takeLaunch; split <;> rfl
@[simp] theorem State.takeLaunch_fault : s.takeLaunch.fault = s.fault := by
  unfold takeLaunch; split <;> rfl
@[simp] theorem State.takeLaunch_trace : s.takeLaunch.trace = s.trace := by
  unfold takeLaunch; split <;> rfl
@[simp] theorem State.takeLaunch_schedule : s.takeLaunch.schedule = s.schedule := by
  unfold takeLaunch; split <;> rfl

/-! ### The views -/

@[simp] theorem State.emit_payloadSize (o : OutEvent) : (State.emit o s).payloadSize = s.payloadSize := rfl
@[simp] theorem State.takeLaunch_payloadSize : s.takeLaunch.payloadSize = s.payloadSize := by
  simp [State.payloadSize]
@[simp] theorem State.takeLaunch_payloadByte (i : Nat) : s.takeLaunch.payloadByte i = s.payloadByte i := by
  simp [State.payloadByte]
@[simp] theorem State.sel_cnt : s.sel.cnt = s.cnt := rfl
@[simp] theorem State.sel_sending : s.sel.sending = s.sending := rfl
@[simp] theorem State.sel_phase : s.sel.phase = s.phase := rfl

end Sys2Proof.Machine
end

