-- ==== Sys2Proof/Laws/Meanings.lean ====
section
/-! SUPPORT. The payload step's second part: its three outcomes, and what it leaves unchanged. -/

namespace Sys2Proof.Machine

variable (s : State)

/-- The end of the buffer, the silent stop, or one byte (spec/41_streamer.md R112). -/
theorem streamOne_cases :
    (s.payloadSize ≤ s.pos ∧ streamOne s = State.emit .done { s with act := false }) ∨
    (s.pos < s.payloadSize ∧ s.sending = false ∧ streamOne s = { s with act := false }) ∨
    (s.pos < s.payloadSize ∧ s.sending = true ∧ streamOne s = s.writeByte (s.payloadByte s.pos)) := by
  by_cases h : s.payloadSize ≤ s.pos
  · exact .inl ⟨h, by simp [streamOne, h]⟩
  · cases hs : s.sending
    · exact .inr (.inl ⟨by omega, rfl, by simp [streamOne, h, hs]⟩)
    · exact .inr (.inr ⟨by omega, rfl, by simp [streamOne, h, hs]⟩)

@[simp] theorem streamOne_par : (streamOne s).par = s.par := by
  obtain ⟨_, h⟩ | ⟨_, _, h⟩ | ⟨_, _, h⟩ := streamOne_cases s <;> rw [h] <;> rfl
@[simp] theorem streamOne_wasReset : (streamOne s).wasReset = s.wasReset := by
  obtain ⟨_, h⟩ | ⟨_, _, h⟩ | ⟨_, _, h⟩ := streamOne_cases s <;> rw [h] <;> rfl
@[simp] theorem streamOne_sending : (streamOne s).sending = s.sending := by
  obtain ⟨_, h⟩ | ⟨_, _, h⟩ | ⟨_, _, h⟩ := streamOne_cases s <;> rw [h] <;> rfl
@[simp] theorem streamOne_cnt : (streamOne s).cnt = s.cnt := by
  obtain ⟨_, h⟩ | ⟨_, _, h⟩ | ⟨_, _, h⟩ := streamOne_cases s <;> rw [h] <;> rfl
@[simp] theorem streamOne_acc : (streamOne s).acc = s.acc := by
  obtain ⟨_, h⟩ | ⟨_, _, h⟩ | ⟨_, _, h⟩ := streamOne_cases s <;> rw [h] <;> rfl
@[simp] theorem streamOne_phase : (streamOne s).phase = s.phase := by
  obtain ⟨_, h⟩ | ⟨_, _, h⟩ | ⟨_, _, h⟩ := streamOne_cases s <;> rw [h] <;> rfl
@[simp] theorem streamOne_hidx : (streamOne s).hidx = s.hidx := by
  obtain ⟨_, h⟩ | ⟨_, _, h⟩ | ⟨_, _, h⟩ := streamOne_cases s <;> rw [h] <;> rfl
@[simp] theorem streamOne_pos : (streamOne s).pos = s.pos := by
  obtain ⟨_, h⟩ | ⟨_, _, h⟩ | ⟨_, _, h⟩ := streamOne_cases s <;> rw [h] <;> rfl
@[simp] theorem streamOne_lreq : (streamOne s).lreq = s.lreq := by
  obtain ⟨_, h⟩ | ⟨_, _, h⟩ | ⟨_, _, h⟩ := streamOne_cases s <;> rw [h] <;> rfl
@[simp] theorem streamOne_loff : (streamOne s).loff = s.loff := by
  obtain ⟨_, h⟩ | ⟨_, _, h⟩ | ⟨_, _, h⟩ := streamOne_cases s <;> rw [h] <;> rfl
@[simp] theorem streamOne_fault : (streamOne s).fault = s.fault := by
  obtain ⟨_, h⟩ | ⟨_, _, h⟩ | ⟨_, _, h⟩ := streamOne_cases s <;> rw [h] <;> rfl
@[simp] theorem streamOne_schedule : (streamOne s).schedule = s.schedule := by
  obtain ⟨_, h⟩ | ⟨_, _, h⟩ | ⟨_, _, h⟩ := streamOne_cases s <;> rw [h] <;> rfl

end Sys2Proof.Machine
end

