-- ==== Sys2Proof/Laws/Memory.lean ====
section
/-! SUPPORT. The payload buffer: its one read, the host's load, and the canonical form, which every memory operation
keeps (the block has no write, spec/20_memory.md R52; the load is the only operation that makes a buffer). -/

namespace Sys2Proof.Machine

@[simp] theorem Memory.read_none (m : Memory) (i : Nat) : m.read i = none ↔ m.size ≤ i := by
  simp [Memory.read]

theorem Memory.read_of_lt {m : Memory} {i : Nat} (h : i < m.size) : m.read i = some (m.byteAt i) := by
  simp [Memory.read, h]

@[simp] theorem Memory.ofBytes_size (bs : List Byte) : (Memory.ofBytes bs).size = bs.length := rfl

theorem cellsWf_mono {lo lo' hi : Nat} (h : lo' ≤ lo) :
    ∀ {cs : List Host.Cell}, cellsWf lo hi cs = true → cellsWf lo' hi cs = true
  | [], _ => rfl
  | (a, b) :: cs, hw => by
    simp only [cellsWf, Bool.and_eq_true, decide_eq_true_eq] at hw ⊢
    exact ⟨⟨⟨by omega, hw.1.1.2⟩, hw.1.2⟩, hw.2⟩

/-- The load makes a buffer in canonical form. -/
theorem cellsOf_wf (bs : List Byte) : ∀ base : Nat, cellsWf base (base + bs.length) (cellsOf base bs) = true := by
  induction bs with
  | nil => intro base; rfl
  | cons b bs ih =>
    intro base
    have h := ih (base + 1)
    rw [List.length_cons, show base + (bs.length + 1) = base + 1 + bs.length by omega]
    by_cases hb : b = Memory.unlisted
    · simpa [cellsOf, hb] using cellsWf_mono (by omega) h
    · have hlt : base < base + 1 + bs.length := by omega
      simp [cellsOf, hb, cellsWf, h, hlt]

theorem Memory.ofBytes_wf (bs : List Byte) : (Memory.ofBytes bs).wf = true := by
  simpa [Memory.wf, Memory.ofBytes] using cellsOf_wf bs 0

theorem State.reset_memory_wf : State.reset.par.payload.wf = true := rfl

/-- No listed index below `lo` in a canonical list that starts at `lo`. -/
theorem cellAt_below {lo hi i : Nat} (hi' : i < lo) :
    ∀ {cs : List Host.Cell}, cellsWf lo hi cs = true → cellAt cs i = Memory.unlisted
  | [], _ => rfl
  | (a, b) :: cs, hw => by
    simp only [cellsWf, Bool.and_eq_true, decide_eq_true_eq] at hw
    have ha : a ≠ i := by omega
    simp only [cellAt, ha, if_false]
    exact cellAt_below (by omega) hw.2

/-- The load is read back: index `base + k` holds the k-th byte. -/
theorem cellAt_cellsOf (bs : List Byte) :
    ∀ (base k : Nat) (h : k < bs.length), cellAt (cellsOf base bs) (base + k) = bs[k] := by
  induction bs with
  | nil => intro base k h; simp at h
  | cons b bs ih =>
    intro base k h
    cases k with
    | zero =>
      by_cases hb : b = Memory.unlisted
      · have hw := cellsOf_wf bs (base + 1)
        simpa [cellsOf, hb] using cellAt_below (by omega) hw
      · simp [cellsOf, hb, cellAt]
    | succ k =>
      have h' : k < bs.length := by simpa using h
      have hk := ih (base + 1) k h'
      rw [show base + 1 + k = base + (k + 1) by omega] at hk
      by_cases hb : b = Memory.unlisted
      · simpa [cellsOf, hb] using hk
      · simp [cellsOf, hb, cellAt, hk]

theorem Memory.byteAt_ofBytes (bs : List Byte) {i : Nat} (h : i < bs.length) :
    (Memory.ofBytes bs).byteAt i = bs[i] := by
  simpa [Memory.byteAt, Memory.ofBytes] using cellAt_cellsOf bs 0 i h

end Sys2Proof.Machine
end

