-- ==== Sys2Proof/Laws/Ops.lean ====
section
/-! SUPPORT. One lemma for each shared operation that says everything it can do. -/

namespace Sys2Proof.Machine

theorem raiseHostFault_next (r : HostFault) (s : State) :
    raiseHostFault r s = .next { s with fault := s.fault.or (some r) } := rfl

/-- Everything `hostEvent` answers as a next state. -/
theorem hostEvent_next {w : EventWord} {viol : Option HostFault} {sel : Bool} {s t u : State} :
    hostEvent w viol sel s t = .next u ↔
      (s.wasReset = false ∧ u = { s with fault := s.fault.or (some (.eventBeforeReset w)) }) ∨
      (s.wasReset = true ∧ ∃ r, viol = some r ∧ u = { s with fault := s.fault.or (some r) }) ∨
      (s.wasReset = true ∧ viol = none ∧ s.fault = none ∧ sel = true ∧ u = t) := by
  cases hr : s.wasReset <;> cases hv : viol <;> cases hf : s.fault <;> cases hs : sel <;>
    simp [hostEvent, raiseHostFault, hr, hf, eq_comm]

/-- The only stop a host event raises: a legal event while `fault` is set. -/
theorem hostEvent_fault {w : EventWord} {viol : Option HostFault} {sel : Bool} {s t : State} {f : Fault} :
    hostEvent w viol sel s t = .fault f ↔
      s.wasReset = true ∧ viol = none ∧ ∃ r, s.fault = some r ∧ f = .faulted r := by
  cases hr : s.wasReset <;> cases hv : viol <;> cases hf : s.fault <;> cases hs : sel <;>
    simp [hostEvent, raiseHostFault, hr, hf, eq_comm]

/-- The only refusal of a host event: another form of it is selected. -/
theorem hostEvent_refused {w : EventWord} {viol : Option HostFault} {sel : Bool} {s t : State} {x : Refusal} :
    hostEvent w viol sel s t = .refused x ↔
      s.wasReset = true ∧ viol = none ∧ s.fault = none ∧ sel = false ∧ x = .formNotSelected := by
  cases hr : s.wasReset <;> cases hv : viol <;> cases hf : s.fault <;> cases hs : sel <;>
    simp [hostEvent, raiseHostFault, hr, hf, eq_comm]

theorem engineStep_next {enabled : Bool} {r : Result} {u : State} :
    engineStep enabled r = .next u ↔ enabled = true ∧ r = .next u := by
  cases enabled <;> simp [engineStep]

theorem noWrite_none {w : EventWord} {s : State} : noWrite w s = none ↔ s.busy = true := by
  cases h : s.busy <;> simp [noWrite, h]

theorem noWrite_some {w : EventWord} {s : State} {r : HostFault} :
    noWrite w s = some r ↔ s.busy = false ∧ r = .respNoWrite w := by
  cases h : s.busy <;> simp [noWrite, h, eq_comm]

theorem engineFree_iff {s : State} :
    s.engineFree = true ↔ s.wasReset = true ∧ s.fault = none ∧ s.busy = false := by
  simp [State.engineFree, and_assoc]

theorem hdrEnabled_iff {s : State} :
    s.hdrEnabled = true ↔ s.wasReset = true ∧ s.fault = none ∧ s.busy = false ∧ s.phase = .hdr := by
  simp [State.hdrEnabled, engineFree_iff, and_assoc]

theorem payEnabled_iff {s : State} :
    s.payEnabled = true ↔
      s.wasReset = true ∧ s.fault = none ∧ s.busy = false ∧ s.phase = .run ∧ (s.lreq = true ∨ s.act = true) := by
  simp [State.payEnabled, engineFree_iff, and_assoc]

theorem stepEnabled_iff {s : State} :
    s.stepEnabled = true ↔ s.hdrEnabled = true ∨ s.payEnabled = true := by
  simp [State.stepEnabled]

@[simp] theorem fetchTurn_cons {s : State} {t : Turn} {rest : List Turn} (h : s.schedule = t :: rest) :
    fetchTurn s = some (t, { s with schedule := rest }) := by
  simp [fetchTurn, h]

@[simp] theorem fetchTurn_nil {s : State} (h : s.schedule = []) :
    fetchTurn s = if s.stepEnabled then some (.engine, s) else none := by
  simp [fetchTurn, h]

end Sys2Proof.Machine
end

