-- ==== Sys2Proof/Laws/PerInstr.lean ====
section
/-! SUPPORT. What the opcode table says of each row's word, reaction by reaction: the match and the mask of the row
(spec/opcode_table.json), and that the two rows of STEP have no word (spec/30_encoding.md R78). -/

namespace Sys2Proof.Laws.EncodingRow

/-- The row of the table a reaction belongs to, as a condition on its line. -/
def RowHolds : Instr → Turn → Prop
  | .reset, t => t = .event 0x000
  | .start, t => t = .event 0x100
  | .rxAcc b, t => ∃ w, t = .event w ∧ w.toNat / 256 = 2 ∧ w.toNat % 256 = b.toNat
  | .cgPause b, t => ∃ w, t = .event w ∧ w.toNat / 256 = 2 ∧ w.toNat % 256 = b.toNat
  | .cgResume b, t => ∃ w, t = .event w ∧ w.toNat / 256 = 2 ∧ w.toNat % 256 = b.toNat
  | .txOkHdr, t => t = .event 0x300
  | .txOkPay, t => t = .event 0x300
  | .txErrHdr, t => t = .event 0x400
  | .txErrPay, t => t = .event 0x400
  | .stepHdr, t => t = .engine
  | .stepPay, t => t = .engine
  | .reservedKind _ d, t => ∃ w, t = .event w ∧ 0x500 ≤ w.toNat ∧ w.toNat % 256 = d.toNat
  | .reservedData k d, t =>
    ∃ w, t = .event w ∧ w.toNat / 256 = k.toNat ∧ w.toNat / 256 ∈ [0, 1, 3, 4] ∧ w.toNat % 256 = d.toNat ∧
      w.toNat % 256 ≠ 0

/-- A well-formed reaction's line is the one its row gives. -/
def Statement (i : Instr) : Prop := i.wellFormed = true → RowHolds i (encode i)

theorem mkEvent_kind_nat (k : BitVec 3) (d : Byte) : (mkEvent k d).toNat / 256 = k.toNat := by
  have : d.toNat < 256 := d.isLt
  rw [mkEvent_toNat]; omega

theorem mkEvent_data_nat (k : BitVec 3) (d : Byte) : (mkEvent k d).toNat % 256 = d.toNat := by
  have : d.toNat < 256 := d.isLt
  rw [mkEvent_toNat]; omega

theorem rxRow (b : Byte) :
    ∃ w, Turn.event (mkEvent 2 b) = .event w ∧ w.toNat / 256 = 2 ∧ w.toNat % 256 = b.toNat :=
  ⟨_, rfl, mkEvent_kind_nat 2 b, mkEvent_data_nat 2 b⟩

theorem reset : Statement .reset := fun _ => congrArg Turn.event (by decide)
theorem start : Statement .start := fun _ => congrArg Turn.event (by decide)
theorem rxAcc (b : Byte) : Statement (.rxAcc b) := fun _ => rxRow b
theorem cgPause (b : Byte) : Statement (.cgPause b) := fun _ => rxRow b
theorem cgResume (b : Byte) : Statement (.cgResume b) := fun _ => rxRow b
theorem txOkHdr : Statement .txOkHdr := fun _ => congrArg Turn.event (by decide)
theorem txOkPay : Statement .txOkPay := fun _ => congrArg Turn.event (by decide)
theorem txErrHdr : Statement .txErrHdr := fun _ => congrArg Turn.event (by decide)
theorem txErrPay : Statement .txErrPay := fun _ => congrArg Turn.event (by decide)
theorem stepHdr : Statement .stepHdr := fun _ => rfl
theorem stepPay : Statement .stepPay := fun _ => rfl

theorem reservedKind (kind : BitVec 3) (data : Byte) : Statement (.reservedKind kind data) := by
  intro h
  have hk : 5 ≤ kind.toNat := of_decide_eq_true h
  refine ⟨_, rfl, ?_, mkEvent_data_nat kind data⟩
  rw [mkEvent_toNat]; omega

theorem reservedData (kind : BitVec 3) (data : Byte) : Statement (.reservedData kind data) := by
  intro h
  obtain ⟨hk, hd⟩ := (Bool.and_eq_true _ _).mp h
  have hd0 : data.toNat ≠ 0 := fun e => of_decide_eq_true hd (BitVec.eq_of_toNat_eq e)
  refine ⟨_, rfl, mkEvent_kind_nat kind data, ?_, mkEvent_data_nat kind data, ?_⟩
  · rw [mkEvent_kind_nat]; clear h hd hd0; revert hk; revert kind; decide
  · rw [mkEvent_data_nat]; exact hd0

end Sys2Proof.Laws.EncodingRow
end

