-- ==== Sys2Proof/Laws/Step.lean ====
section
/-! SUPPORT. Everything a step can do, said once: the relation `Reacts` lists the reactions with their guards, and
`exec_reacts` says that a decoded turn answers a next state exactly where `Reacts` holds. -/

namespace Sys2Proof.Machine

section
variable (s : State)

theorem violationOf_reset : violationOf s (mkEvent 0 0) = none := by
  have h : mkEvent 0 0 = 0x000 := by decide
  simp only [violationOf, h, if_true]

theorem violationOf_start : violationOf s (mkEvent 1 0) =
    if s.wasReset = false then some (.eventBeforeReset (mkEvent 1 0)) else notIdle s := by
  have h : mkEvent 1 0 = 0x100 := by decide
  have hr : reservedWord 0x100 = false := by decide
  simp only [violationOf, h, hr, notIdle]
  cases s.wasReset <;> cases s.phase <;> simp

theorem violationOf_rx (b : Byte) : violationOf s (mkEvent 2 b) =
    if s.wasReset = false then some (.eventBeforeReset (mkEvent 2 b)) else none := by
  have hb : b.toNat < 256 := b.isLt
  have hn : (mkEvent 2 b).toNat = 512 + b.toNat := by rw [mkEvent_toNat]; rfl
  have h0 : ∀ c : EventWord, c.toNat < 512 ∨ 768 ≤ c.toNat → mkEvent 2 b ≠ c := by
    intro c hc h; rw [h] at hn; omega
  have hr : reservedWord (mkEvent 2 b) = false := by
    simp only [reservedWord, hn, Bool.or_eq_false_iff, Bool.and_eq_false_iff, decide_eq_false_iff_not]
    omega
  have h1 := h0 0x000 (by decide)
  have h2 := h0 0x100 (by decide)
  have h3 := h0 0x300 (by decide)
  have h4 := h0 0x400 (by decide)
  simp only [violationOf, hr, h1, h2, h3, h4, if_false, false_and, or_self]
  simp

theorem violationOf_ok : violationOf s (mkEvent 3 0) =
    if s.wasReset = false then some (.eventBeforeReset (mkEvent 3 0)) else noWrite (mkEvent 3 0) s := by
  have h : mkEvent 3 0 = 0x300 := by decide
  have hr : reservedWord 0x300 = false := by decide
  simp only [violationOf, h, hr, noWrite]
  cases s.wasReset <;> cases s.busy <;> simp

theorem violationOf_err : violationOf s (mkEvent 4 0) =
    if s.wasReset = false then some (.eventBeforeReset (mkEvent 4 0)) else noWrite (mkEvent 4 0) s := by
  have h : mkEvent 4 0 = 0x400 := by decide
  have hr : reservedWord 0x400 = false := by decide
  simp only [violationOf, h, hr, noWrite]
  cases s.wasReset <;> cases s.busy <;> simp

theorem reservedWord_not_zero {w : EventWord} (h : reservedWord w = true) : w ≠ 0x000 := by
  rintro rfl; exact absurd h (by decide)

theorem violationOf_reserved {w : EventWord} (h : reservedWord w = true) : violationOf s w =
    if s.wasReset = false then some (.eventBeforeReset w) else some (.reservedEvent w) := by
  have h0 := reservedWord_not_zero h
  simp only [violationOf, h, h0, if_false, if_true]

theorem reservedWord_kind {k : BitVec 3} (hk : kindReserved k = true) (d : Byte) :
    reservedWord (mkEvent k d) = true := by
  have h5 : 5 ≤ k.toNat := by simpa [kindReserved] using hk
  simp only [reservedWord, mkEvent_toNat, Bool.or_eq_true, decide_eq_true_eq]
  left; omega

theorem reservedWord_data {k : BitVec 3} (hk : kindBare k = true) {d : Byte} (hd : d ≠ 0) :
    reservedWord (mkEvent k d) = true := by
  have hd0 : d.toNat ≠ 0 := fun h => hd (BitVec.eq_of_toNat_eq (by simpa using h))
  have hb : d.toNat < 256 := d.isLt
  have hk2 : k.toNat ≠ 2 := by
    simp only [kindBare, Bool.or_eq_true, decide_eq_true_eq] at hk
    obtain ((rfl | rfl) | rfl) | rfl := hk <;> decide
  simp only [reservedWord, mkEvent_toNat, Bool.or_eq_true, Bool.and_eq_true, decide_eq_true_eq]
  right; omega

end

/-- The reactions of the block, each with its guard: `Reacts s t u` when turn `t` takes `s` to `u`. -/
inductive Reacts (s : State) : Turn → State → Prop where
  | reset : Reacts s (.event (mkEvent 0 0)) s.clearRegisters
  | violation (w : EventWord) (r : HostFault) (hv : violationOf s w = some r) :
      Reacts s (.event w) { s with fault := s.fault.or (some r) }
  | start (hr : s.wasReset = true) (hf : s.fault = none) (hp : s.phase = .idle) :
      Reacts s (.event (mkEvent 1 0)) (State.requestLaunch 0 { s with phase := .hdr, hidx := 0 })
  | rxAcc (b : Byte) (hr : s.wasReset = true) (hf : s.fault = none) (hc : s.cnt.toNat < 2) :
      Reacts s (.event (mkEvent 2 b)) { s with acc := shiftIn s.acc b, cnt := s.cnt + 1 }
  | cgPause (b : Byte) (hr : s.wasReset = true) (hf : s.fault = none) (hc : ¬ s.cnt.toNat < 2)
      (hs : s.sending = true) : Reacts s (.event (mkEvent 2 b)) s.pauseSending.closeGroup
  | cgResume (b : Byte) (hr : s.wasReset = true) (hf : s.fault = none) (hc : ¬ s.cnt.toNat < 2)
      (hs : s.sending = false) :
      Reacts s (.event (mkEvent 2 b))
        ((s.resumeSending.requestLaunch (offsetOf (shiftIn s.acc b))).closeGroup)
  | txOkHdr (hr : s.wasReset = true) (hf : s.fault = none) (hb : s.busy = true) (hp : s.phase = .hdr) :
      Reacts s (.event (mkEvent 3 0))
        { s.answer with hidx := s.hidx + 1, phase := phaseAfterHeader (s.hidx + 1) s.phase }
  | txOkPay (hr : s.wasReset = true) (hf : s.fault = none) (hb : s.busy = true) (hp : s.phase = .run) :
      Reacts s (.event (mkEvent 3 0)) { s.answer with pos := s.pos + 1 }
  | txErrHdr (hr : s.wasReset = true) (hf : s.fault = none) (hb : s.busy = true) (hp : s.phase = .hdr) :
      Reacts s (.event (mkEvent 4 0)) { s.answer.emit (.werr .hdr s.hidx.toNat) with phase := .fail }
  | txErrPay (hr : s.wasReset = true) (hf : s.fault = none) (hb : s.busy = true) (hp : s.phase = .run) :
      Reacts s (.event (mkEvent 4 0)) (State.emit (.werr .pay s.pos) { s.answer with act := false })
  | stepHdr (b : Byte) (he : s.hdrEnabled = true) (hb : s.headerByte s.hidx = some b) :
      Reacts s .engine (s.writeByte b)
  | stepPay (he : s.payEnabled = true) : Reacts s .engine (streamOne s.takeLaunch)

theorem event_next_violation {s u : State} {w : EventWord} {viol : Option HostFault} {sel : Bool} {t : State}
    (hviol : violationOf s w = if s.wasReset = false then some (.eventBeforeReset w) else viol)
    (ht : s.wasReset = true → s.fault = none → viol = none → sel = true → Reacts s (.event w) t)
    (h : hostEvent w viol sel s t = .next u) : Reacts s (.event w) u := by
  obtain ⟨hr, rfl⟩ | ⟨hr, r, hv, rfl⟩ | ⟨hr, hv, hf, hs, rfl⟩ := hostEvent_next.1 h
  · exact .violation w _ (by rw [hviol, hr]; rfl)
  · exact .violation w r (by rw [hviol, hr, hv]; rfl)
  · exact ht hr hf hv hs

/-- A decoded turn that answers a next state is one of the reactions. -/
theorem reacts_of_exec {s u : State} {t : Turn} (h : exec (decodeTurn s.sel t) s = .next u) :
    Reacts s t u := by
  cases t with
  | engine =>
    rw [decodeTurn, decodeEngine, State.sel_phase] at h
    by_cases hp : s.phase = .hdr
    · rw [if_pos hp] at h
      obtain ⟨he, h⟩ := engineStep_next.1 h
      split at h
      · next b hb => cases h; exact .stepHdr b he hb
      · cases h
    · rw [if_neg hp] at h
      obtain ⟨he, h⟩ := engineStep_next.1 h
      cases h; exact .stepPay he
  | event w =>
    simp only [decodeTurn] at h
    obtain rfl | rfl | ⟨b, rfl⟩ | rfl | rfl | ⟨k, d, rfl, hk⟩ | ⟨k, d, rfl, hk, hd⟩ := eventWord_cases w
    · rw [decodeEvent_reset] at h; cases h; exact .reset
    · rw [decodeEvent_start] at h
      refine event_next_violation (violationOf_start s) (fun hr hf hv _ => .start hr hf ?_) h
      by_contra hp; simp [notIdle, hp] at hv
    · rw [decodeEvent_rx, decodeRx, State.sel_cnt, State.sel_sending] at h
      by_cases hc : s.cnt.toNat < 2
      · rw [if_pos hc] at h
        exact event_next_violation (violationOf_rx s b) (fun hr hf _ _ => .rxAcc b hr hf hc) h
      · rw [if_neg hc] at h
        by_cases hs : s.sending = true
        · rw [if_pos hs] at h
          exact event_next_violation (violationOf_rx s b) (fun hr hf _ _ => .cgPause b hr hf hc hs) h
        · rw [if_neg hs] at h
          exact event_next_violation (violationOf_rx s b)
            (fun hr hf _ _ => .cgResume b hr hf hc (by simpa using hs)) h
    · rw [decodeEvent_ok, State.sel_phase] at h
      by_cases hp : s.phase = .hdr
      · rw [if_pos hp] at h
        exact event_next_violation (violationOf_ok s) (fun hr hf hv _ => .txOkHdr hr hf (noWrite_none.1 hv) hp) h
      · rw [if_neg hp] at h
        exact event_next_violation (violationOf_ok s)
          (fun hr hf hv hs => .txOkPay hr hf (noWrite_none.1 hv) (by simpa using hs)) h
    · rw [decodeEvent_err, State.sel_phase] at h
      by_cases hp : s.phase = .hdr
      · rw [if_pos hp] at h
        exact event_next_violation (violationOf_err s) (fun hr hf hv _ => .txErrHdr hr hf (noWrite_none.1 hv) hp) h
      · rw [if_neg hp] at h
        exact event_next_violation (violationOf_err s)
          (fun hr hf hv hs => .txErrPay hr hf (noWrite_none.1 hv) (by simpa using hs)) h
    · rw [decodeEvent_reservedKind _ hk] at h
      exact event_next_violation (t := s) (sel := true) (violationOf_reserved s (reservedWord_kind hk d)) (fun _ _ hv _ => by cases hv) h
    · rw [decodeEvent_reservedData _ hk hd] at h
      exact event_next_violation (t := s) (sel := true) (violationOf_reserved s (reservedWord_data hk hd)) (fun _ _ hv _ => by cases hv) h

/-- Where a host event is legal, taken in order and selected, its reaction happens. -/
theorem hostEvent_ok {w : EventWord} {viol : Option HostFault} {sel : Bool} {s t : State} (hr : s.wasReset = true)
    (hf : s.fault = none) (hv : viol = none) (hs : sel = true) : hostEvent w viol sel s t = .next t :=
  hostEvent_next.2 (.inr (.inr ⟨hr, hv, hf, hs, rfl⟩))

/-- A violation is recorded, whatever form the word takes. -/
theorem hostEvent_violates {w : EventWord} {viol : Option HostFault} {sel : Bool} {s t : State} {r : HostFault}
    (hviol : violationOf s w = if s.wasReset = false then some (.eventBeforeReset w) else viol)
    (hv : violationOf s w = some r) :
    hostEvent w viol sel s t = .next { s with fault := s.fault.or (some r) } := by
  rw [hviol] at hv
  rw [hostEvent_next]
  cases hr : s.wasReset with
  | false => rw [hr] at hv; cases hv; exact .inl ⟨rfl, rfl⟩
  | true => rw [hr] at hv; exact .inr (.inl ⟨rfl, r, by simpa using hv, rfl⟩)

/-- Every reaction happens: `reacts_of_exec` the other way round. -/
theorem exec_of_reacts {s u : State} {t : Turn} (h : Reacts s t u) : exec (decodeTurn s.sel t) s = .next u := by
  cases h with
  | reset => rw [decodeTurn, decodeEvent_reset]; rfl
  | violation w r hv =>
    rw [decodeTurn]
    obtain rfl | rfl | ⟨b, rfl⟩ | rfl | rfl | ⟨k, d, rfl, hk⟩ | ⟨k, d, rfl, hk, hd⟩ := eventWord_cases w
    · rw [violationOf_reset] at hv; cases hv
    · rw [decodeEvent_start]; exact hostEvent_violates (violationOf_start s) hv
    · rw [decodeEvent_rx, decodeRx]
      split
      · exact hostEvent_violates (violationOf_rx s b) hv
      · split
        · exact hostEvent_violates (violationOf_rx s b) hv
        · exact hostEvent_violates (violationOf_rx s b) hv
    · rw [decodeEvent_ok]
      split <;> exact hostEvent_violates (violationOf_ok s) hv
    · rw [decodeEvent_err]
      split <;> exact hostEvent_violates (violationOf_err s) hv
    · rw [decodeEvent_reservedKind _ hk]
      exact hostEvent_violates (t := s) (sel := true) (violationOf_reserved s (reservedWord_kind hk d)) hv
    · rw [decodeEvent_reservedData _ hk hd]
      exact hostEvent_violates (t := s) (sel := true) (violationOf_reserved s (reservedWord_data hk hd)) hv
  | start hr hf hp =>
    rw [decodeTurn, decodeEvent_start]; exact hostEvent_ok hr hf (by simp [notIdle, hp]) rfl
  | rxAcc b hr hf hc =>
    rw [decodeTurn, decodeEvent_rx, decodeRx, State.sel_cnt, if_pos hc]
    exact hostEvent_ok hr hf rfl (by simpa [Instr.selectedBy] using hc)
  | cgPause b hr hf hc hs =>
    rw [decodeTurn, decodeEvent_rx, decodeRx, State.sel_cnt, State.sel_sending, if_neg hc, if_pos hs]
    exact hostEvent_ok hr hf rfl (by simpa [Instr.selectedBy, hs] using hc)
  | cgResume b hr hf hc hs =>
    rw [decodeTurn, decodeEvent_rx, decodeRx, State.sel_cnt, State.sel_sending, if_neg hc, if_neg (by simp [hs])]
    exact hostEvent_ok hr hf rfl (by simpa [Instr.selectedBy, hs] using hc)
  | txOkHdr hr hf hb hp =>
    rw [decodeTurn, decodeEvent_ok, State.sel_phase, if_pos hp]
    exact hostEvent_ok hr hf (noWrite_none.2 hb) (by simpa using hp)
  | txOkPay hr hf hb hp =>
    rw [decodeTurn, decodeEvent_ok, State.sel_phase, if_neg (by simp [hp])]
    exact hostEvent_ok hr hf (noWrite_none.2 hb) (by simpa using hp)
  | txErrHdr hr hf hb hp =>
    rw [decodeTurn, decodeEvent_err, State.sel_phase, if_pos hp]
    exact hostEvent_ok hr hf (noWrite_none.2 hb) (by simpa using hp)
  | txErrPay hr hf hb hp =>
    rw [decodeTurn, decodeEvent_err, State.sel_phase, if_neg (by simp [hp])]
    exact hostEvent_ok hr hf (noWrite_none.2 hb) (by simpa using hp)
  | stepHdr b he hb =>
    rw [decodeTurn, decodeEngine, State.sel_phase, if_pos (hdrEnabled_iff.1 he).2.2.2]
    exact engineStep_next.2 ⟨he, by rw [hb]⟩
  | stepPay he =>
    rw [decodeTurn, decodeEngine, State.sel_phase, if_neg (by simp [(payEnabled_iff.1 he).2.2.2.1])]
    exact engineStep_next.2 ⟨he, rfl⟩

/-- No reaction touches the schedule or the parameters. -/
theorem Reacts.schedule {s u : State} {t : Turn} (h : Reacts s t u) : u.schedule = s.schedule := by
  cases h <;> simp

theorem Reacts.par {s u : State} {t : Turn} (h : Reacts s t u) : u.par = s.par := by
  cases h <;> simp

theorem takeLaunch_withSchedule (s : State) (q : List Turn) :
    State.takeLaunch { s with schedule := q } = { s.takeLaunch with schedule := q } := by
  by_cases hl : s.lreq = true <;> simp [State.takeLaunch, hl]

theorem streamOne_withSchedule (s : State) (q : List Turn) :
    streamOne { s with schedule := q } = { streamOne s with schedule := q } := by
  obtain ⟨hn, h⟩ | ⟨hn, hs, h⟩ | ⟨hn, hs, h⟩ := streamOne_cases s
  · rw [h]; exact if_pos hn
  · rw [h]; exact (if_neg (Nat.not_le.2 hn)).trans (if_neg (by simp [hs]))
  · rw [h]; exact (if_neg (Nat.not_le.2 hn)).trans (if_pos hs)

/-- The schedule plays no part in a reaction. -/
theorem Reacts.withSchedule {s u : State} {t : Turn} (h : Reacts s t u) (q : List Turn) :
    Reacts { s with schedule := q } t { u with schedule := q } := by
  cases h with
  | reset => exact .reset
  | violation w r hv => exact .violation w r hv
  | start hr hf hp => exact .start hr hf hp
  | rxAcc b hr hf hc => exact .rxAcc b hr hf hc
  | cgPause b hr hf hc hs => exact .cgPause b hr hf hc hs
  | cgResume b hr hf hc hs => exact .cgResume b hr hf hc hs
  | txOkHdr hr hf hb hp => exact .txOkHdr hr hf hb hp
  | txOkPay hr hf hb hp => exact .txOkPay hr hf hb hp
  | txErrHdr hr hf hb hp => exact .txErrHdr hr hf hb hp
  | txErrPay hr hf hb hp => exact .txErrPay hr hf hb hp
  | stepHdr b he hb => exact .stepHdr b he hb
  | stepPay he => rw [← streamOne_withSchedule, ← takeLaunch_withSchedule]; exact .stepPay he

/-- A step is one reaction of the turn it fetches, or the wait with nothing to do. -/
theorem step_cases {s u : State} (h : step s = .next u) :
    (fetchTurn s = none ∧ u = s) ∨ ∃ t s', fetchTurn s = some (t, s') ∧ Reacts s' t u := by
  unfold step at h
  split at h
  · next hn => cases h; exact .inl ⟨hn, rfl⟩
  · next t s' hs => exact .inr ⟨t, s', hs, reacts_of_exec h⟩

/-- The same with the fetch unfolded: the line taken is the schedule's first, or the engine's turn with nothing
offered. -/
theorem step_reacts {s u : State} (h : step s = .next u) :
    (s.schedule = [] ∧ s.stepEnabled = false ∧ u = s) ∨
    ∃ t rest, (s.schedule = t :: rest ∨ (s.schedule = [] ∧ rest = [] ∧ t = .engine)) ∧
      Reacts { s with schedule := rest } t u := by
  obtain ⟨hn, rfl⟩ | ⟨t, s', hs, hr⟩ := step_cases h
  · cases hq : u.schedule with
    | nil =>
      rw [fetchTurn_nil hq] at hn
      exact .inl ⟨rfl, by simpa using hn, rfl⟩
    | cons t rest => rw [fetchTurn_cons hq] at hn; cases hn
  · right
    cases hq : s.schedule with
    | nil =>
      rw [fetchTurn_nil hq] at hs
      split at hs
      · cases hs
        refine ⟨_, [], .inr ⟨rfl, rfl, rfl⟩, ?_⟩
        rw [← hq]; exact hr
      · cases hs
    | cons t' rest =>
      rw [fetchTurn_cons hq] at hs
      cases hs
      exact ⟨_, rest, .inl rfl, hr⟩

/-- A step with a line offered is exec of its reading. -/
theorem step_cons {s : State} {t : Turn} {rest : List Turn} (h : s.schedule = t :: rest) :
    step s = exec (decodeTurn s.sel t) { s with schedule := rest } := by
  simp only [step, fetchTurn_cons h]
  rfl

/-- A step with nothing offered. -/
theorem step_nil {s : State} (h : s.schedule = []) :
    step s = if s.stepEnabled then exec (decodeTurn s.sel .engine) s else .next s := by
  simp only [step, fetchTurn_nil h]
  cases s.stepEnabled <;> rfl

/-- A run of a list of turns, one turn at a time. -/
theorem runTurns_cons_next {t : Turn} {ts : List Turn} {s v : State} :
    runTurns (t :: ts) s = .next v ↔
      ∃ u, exec (decodeTurn s.sel t) { s with schedule := ts } = .next u ∧ runTurns ts u = .next v := by
  have h : core.step { s with schedule := t :: ts } = exec (decodeTurn s.sel t) { s with schedule := ts } := rfl
  simp only [runTurns, List.length_cons, Host.Core.run, h]
  cases he : exec (decodeTurn s.sel t) { s with schedule := ts } with
  | next u =>
    have hs : u.schedule = ts := (reacts_of_exec (s := { s with schedule := ts }) he).schedule
    have hu : { u with schedule := ts } = u := by cases u; cases hs; rfl
    constructor
    · intro hr; exact ⟨u, rfl, by rw [hu]; exact hr⟩
    · rintro ⟨u', hu', hr⟩; cases hu'; rw [hu] at hr; exact hr
  | fault r => simp
  | refused r => simp

@[simp] theorem runTurns_nil (s : State) : runTurns [] s = .next { s with schedule := [] } := rfl

/-- A run does not look at the schedule it starts with. -/
@[simp] theorem runTurns_withSchedule (ts q : List Turn) (s : State) :
    runTurns ts { s with schedule := q } = runTurns ts s := rfl

/-- A run continues where a reaction happens. -/
theorem runTurns_of_reacts {t : Turn} {ts : List Turn} {s u : State} (h : Reacts s t u) :
    runTurns (t :: ts) s = runTurns ts u := by
  have he : core.step { s with schedule := t :: ts } = .next { u with schedule := ts } :=
    exec_of_reacts (h.withSchedule ts)
  simp only [runTurns, List.length_cons, Host.Core.run, he]
  rfl

/-- Every turn of a run is a reaction. -/
theorem runTurns_cons_reacts {t : Turn} {ts : List Turn} {s v : State} (h : runTurns (t :: ts) s = .next v) :
    ∃ u, Reacts s t u ∧ runTurns ts u = .next v := by
  obtain ⟨u, hu, hr⟩ := runTurns_cons_next.1 h
  exact ⟨_, (reacts_of_exec (s := { s with schedule := ts }) hu).withSchedule s.schedule, hr⟩

end Sys2Proof.Machine
end

