-- ==== Sys2Proof/Laws/Runs.lean ====
section
/-! SUPPORT. What one RX event and one payload step can do, said once, and the ways to argue over a list of turns. -/

namespace Sys2Proof.Machine

/-! ### Words and numbers -/

theorem rxWord_eq (b : Byte) : (0x200 ||| b.setWidth 11 : EventWord) = mkEvent 2 b := by
  have := lineRx_eq b
  simpa only [lineRx, Turn.event.injEq] using this

theorem okWord_eq : (0x300 : EventWord) = mkEvent 3 0 := by decide
theorem errWord_eq : (0x400 : EventWord) = mkEvent 4 0 := by decide
theorem startWord_eq : (0x100 : EventWord) = mkEvent 1 0 := by decide

theorem shiftIn_toNat (a : Value) (b : Byte) : (shiftIn a b).toNat = (a.toNat * 256 + b.toNat) % 2 ^ 24 := by
  have : b.toNat < 256 := b.isLt
  simp only [shiftIn, BitVec.toNat_add, BitVec.toNat_mul, BitVec.toNat_setWidth]
  norm_num
  rfl

theorem offsetOf_shiftIn (a : Value) (b : Byte) : offsetOf (shiftIn a b) = (a.toNat * 256 + b.toNat) % 2 ^ 24 :=
  shiftIn_toNat a b

theorem cnt_succ_toNat {c : BitVec 2} (h : c.toNat < 2) : (c + 1).toNat = c.toNat + 1 := by
  revert h; revert c; decide

theorem bigEndian_snoc (bs : List Byte) (b : Byte) : bigEndian (bs ++ [b]) = bigEndian bs * 256 + b.toNat := by
  simp [bigEndian]

theorem headerByte_some {s : State} (h : s.hidx.toNat ≤ 3) : ∃ b, s.headerByte s.hidx = some b := by
  have hl : s.hidx.toNat < (headerBytes s.par.idByte s.payloadSize).length := by simp [headerBytes]; omega
  exact ⟨_, List.getElem?_eq_getElem hl⟩

theorem payloadFrom_succ (s : State) (r : Nat) (h : r < s.payloadSize) :
    payloadFrom s r = s.payloadByte r :: payloadFrom s (r + 1) := by
  unfold payloadFrom
  rw [show s.payloadSize - r = (s.payloadSize - (r + 1)) + 1 by omega, List.range_succ_eq_map]
  simp [Function.comp_def]
  intro a _; congr 1; omega

/-! ### One RX event -/

/-- The state an accepted RX event leaves (R100 to R103). -/
def rxState (s : State) (b : Byte) : State :=
  if s.cnt.toNat < 2 then { s with acc := shiftIn s.acc b, cnt := s.cnt + 1 }
  else if s.sending = true then s.pauseSending.closeGroup
  else ((s.resumeSending.requestLaunch (offsetOf (shiftIn s.acc b))).closeGroup)

theorem rxState_reacts {s : State} (b : Byte) (ha : Accepting s) : Reacts s (lineRx b) (rxState s b) := by
  rw [lineRx_eq, rxState]
  split_ifs with h1 h2
  · exact .rxAcc b ha.1 ha.2 h1
  · exact .cgPause b ha.1 ha.2 h1 h2
  · exact .cgResume b ha.1 ha.2 h1 (by simpa using h2)

theorem isRx_iff (x : Turn) : x.isRx = true ↔ ∃ b, x = lineRx b := by
  cases x with
  | engine => simp [Turn.isRx]
  | event w =>
    simp only [Turn.isRx, decide_eq_true_eq]
    constructor
    · intro h; exact ⟨eventData w, by rw [lineRx_eq, ← h, mkEvent_fields]⟩
    · rintro ⟨b, hb⟩; rw [lineRx_eq] at hb; cases hb; exact eventKind_mkEvent _ _

/-! ### One step of the engine -/

theorem engine_disabled {s : State} (he : s.stepEnabled = false) :
    exec (decodeTurn s.sel .engine) s = .refused .stepNotEnabled := by
  simp only [State.stepEnabled, Bool.or_eq_false_iff] at he
  rw [decodeTurn, decodeEngine]
  split
  · rw [exec, execStepHdr, engineStep, he.1]; rfl
  · rw [exec, execStepPay, engineStep, he.2]; rfl

theorem takeLaunch_eq (s : State) (h : s.lreq = true ∨ s.act = true) :
    s.takeLaunch = { s with pos := s.streamIndex, lreq := false, act := true } := by
  cases hl : s.lreq with
  | true => simp [State.takeLaunch, State.streamIndex, hl]
  | false =>
    have ha : s.act = true := by simpa [hl] using h
    cases s; simp_all [State.takeLaunch, State.streamIndex]

/-- The three outcomes of a payload step (R112). -/
theorem stream_out (s : State) (hl : s.lreq = true ∨ s.act = true) :
    (s.payloadSize ≤ s.streamIndex ∧ streamOne s.takeLaunch =
      { s with pos := s.streamIndex, lreq := false, act := false, trace := s.trace ++ [.done] }) ∨
    (s.streamIndex < s.payloadSize ∧ s.sending = false ∧ streamOne s.takeLaunch =
      { s with pos := s.streamIndex, lreq := false, act := false }) ∨
    (s.streamIndex < s.payloadSize ∧ s.sending = true ∧ streamOne s.takeLaunch =
      { s with
        pos := s.streamIndex, lreq := false, act := true,
        trace := s.trace ++ [.tx (s.payloadByte s.streamIndex)], busy := true }) := by
  rw [takeLaunch_eq s hl]
  obtain ⟨h, e⟩ | ⟨h, hs, e⟩ | ⟨h, hs, e⟩ :=
    streamOne_cases { s with pos := s.streamIndex, lreq := false, act := true }
  · exact .inl ⟨h, e⟩
  · exact .inr (.inl ⟨h, hs, e⟩)
  · exact .inr (.inr ⟨h, hs, e⟩)

/-! ### Lists of turns -/

/-- The positions of a run's payload bytes, one reaction at a time. -/
theorem payloadPositions_of_reacts {s u : State} {x : Turn} (h : Reacts s x u) (xs : List Turn) :
    payloadPositions (x :: xs) s =
      if writesPayload s u then s.trace.length :: payloadPositions xs u else payloadPositions xs u := by
  rw [payloadPositions, exec_of_reacts h]

/-- No reaction to an event writes a payload byte. -/
theorem writesPayload_event {s u : State} {w : EventWord} (h : Reacts s (.event w) u) : writesPayload s u = false := by
  cases h <;> simp [writesPayload]

/-- Induction over a run: `P` holds of the state and of what is still to come. -/
theorem run_induct (P : State → List Turn → Prop) (Q : State → Prop)
    (h0 : ∀ s, P s [] → Q { s with schedule := [] })
    (hs : ∀ s x xs u, P s (x :: xs) → Reacts s x u → P u xs) :
    ∀ ts s t, P s ts → runTurns ts s = .next t → Q t := by
  intro ts
  induction ts with
  | nil => intro s t hp h; cases h; exact h0 s hp
  | cons x xs ih =>
    intro s t hp h
    obtain ⟨u, hu, hr⟩ := runTurns_cons_reacts h
    exact ih u t (hs s x xs u hp hu) hr

/-- A script of turns that are not RX runs to its end with RX events anywhere among them, if each RX event keeps `P`
at the script still to come and each line of the script moves `P` on. -/
theorem run_interleaved (P : List Turn → State → Prop)
    (hrx : ∀ l s b, P l s → ∃ u, Reacts s (lineRx b) u ∧ P l u)
    (hst : ∀ x l s, P (x :: l) s → ∃ u, Reacts s x u ∧ P l u) :
    ∀ ts l s, ts.filter (fun t => !t.isRx) = l → P l s →
      ∃ t, runTurns ts s = .next { t with schedule := [] } ∧ P [] t := by
  intro ts
  induction ts with
  | nil => rintro l s hl hp; simp at hl; subst hl; exact ⟨s, rfl, hp⟩
  | cons x xs ih =>
    intro l s hl hp
    by_cases hx : x.isRx = true
    · obtain ⟨b, rfl⟩ := (isRx_iff x).1 hx
      rw [List.filter_cons_of_neg (by simpa using hx)] at hl
      obtain ⟨u, hu, hpu⟩ := hrx l s b hp
      obtain ⟨t, ht, hpt⟩ := ih l u hl hpu
      exact ⟨t, by rw [runTurns_of_reacts hu]; exact ht, hpt⟩
    · rw [List.filter_cons_of_pos (by simpa using hx)] at hl
      subst hl
      obtain ⟨u, hu, hpu⟩ := hst x _ s hp
      obtain ⟨t, ht, hpt⟩ := ih _ u rfl hpu
      exact ⟨t, by rw [runTurns_of_reacts hu]; exact ht, hpt⟩

end Sys2Proof.Machine
end

