-- ==== Sys2Proof/Tests/Slice0.lean ====
section
/-! SUPPORT. Tests: ill-formed terms, words written out from the spec's encodings, one step a reaction on small
states, and for every obligation with hypotheses a concrete input that meets them. Expected values are the spec's
(spec/95_test_vectors.md, named at each test), or worked out by hand from the rule named. -/

namespace Sys2Proof.Tests

open Sys2Proof.Machine

/-! ### Small states -/

/-- N = 5, PAYLOAD [10,20,30,40,50], ID_BYTE 0x41 (95_test_vectors.md section 2). -/
def par5 : Params := { payload := Memory.ofBytes [10, 20, 30, 40, 50], idByte := 0x41, ptrW := 24 }

/-- Right after RESET. -/
def blk : State := { State.reset with par := par5 }

/-- In HDR, idle, at header index `h`. -/
def hdrAt (h : BitVec 3) : State := { blk with phase := .hdr, hidx := h, lreq := true }

/-- In HDR with the last header byte, 0x05, in flight. -/
def hdrBusy : State := { hdrAt 3 with busy := true, trace := [.tx 0x05] }

/-- In RUN with nothing in flight and no invocation. -/
def runIdle : State := { blk with phase := .run, hidx := 4 }

/-- In RUN with a launch at `r` pending. -/
def runLaunch (r : Nat) : State := { runIdle with lreq := true, loff := r }

/-- In RUN with an invocation live at `p`. -/
def runLive (p : Nat) : State := { runIdle with act := true, pos := p }

/-- In RUN with PAYLOAD[1] = 20 in flight. -/
def runBusy : State := { runLive 1 with busy := true, trace := [.tx 20] }

/-- In FAIL. -/
def failed : State := { hdrAt 2 with phase := .fail }

/-- The header transfer's lines, from RESET. -/
def headerRun : List Turn := lineStart :: headerLines

/-- With lines to come. -/
def offering (ts : List Turn) (s : State) : State := { s with schedule := ts }

/-! ### WellFormed refuses -/

theorem test_wf_kind_000_is_not_reserved : (Instr.reservedKind 0 0).wellFormed = false := by decide
theorem test_wf_kind_100_is_not_reserved : (Instr.reservedKind 4 0xFF).wellFormed = false := by decide
theorem test_wf_rx_has_no_reserved_data : (Instr.reservedData 2 1).wellFormed = false := by decide
theorem test_wf_kind_101_is_not_bare : (Instr.reservedData 5 1).wellFormed = false := by decide
theorem test_wf_data_zero_is_not_reserved : (Instr.reservedData 1 0).wellFormed = false := by decide

/-! ### Words of the opcode table, KIND then DATA, bit by bit -/

theorem test_decode_reset : decodeEvent blk.sel 0b000_00000000 = .reset := by decide
theorem test_decode_start : decodeEvent blk.sel 0b001_00000000 = .start := by decide
theorem test_decode_rx_acc : decodeEvent ⟨1, false, .fail⟩ 0b010_00110100 = .rxAcc 0x34 := by decide
theorem test_decode_cg_pause : decodeEvent ⟨2, true, .run⟩ 0b010_00000001 = .cgPause 0x01 := by decide
theorem test_decode_cg_resume : decodeEvent ⟨2, false, .run⟩ 0b010_00000011 = .cgResume 0x03 := by decide
theorem test_decode_tx_ok_hdr : decodeEvent ⟨2, true, .hdr⟩ 0b011_00000000 = .txOkHdr := by decide
theorem test_decode_tx_ok_pay : decodeEvent ⟨0, true, .run⟩ 0b011_00000000 = .txOkPay := by decide
theorem test_decode_tx_err_hdr : decodeEvent ⟨0, false, .hdr⟩ 0b100_00000000 = .txErrHdr := by decide
theorem test_decode_tx_err_pay : decodeEvent ⟨1, true, .run⟩ 0b100_00000000 = .txErrPay := by decide
theorem test_decode_step_hdr : decodeTurn ⟨0, true, .hdr⟩ .engine = .stepHdr := by decide
theorem test_decode_step_pay : decodeTurn ⟨0, true, .run⟩ .engine = .stepPay := by decide
theorem test_decode_reserved_kind : decodeEvent blk.sel 0b110_10000001 = .reservedKind 0b110 0x81 := by decide
theorem test_decode_reserved_data : decodeEvent blk.sel 0b100_00000001 = .reservedData 0b100 0x01 := by decide
theorem test_decode_refuses_bit_11 : decodeNumber blk.sel 2048 = .error (.notAnEventWord 2048) := by rfl
theorem test_table_word_start : decodeTableWord 16 0x100 = some .start := by decide
theorem test_table_word_reserved : decodeTableWord 16 0x7FF = some (.reservedKind 7 0xFF) := by decide
theorem test_table_word_step : decodeTableWord 0 0 = some .stepPay := by decide

/-! ### One reaction each -/

/-- V-R1, and R180 mid-transfer: a byte in flight is forgotten. -/
theorem test_reset : ∃ t, exec .reset runBusy = .next t ∧ t.status = 0x001 ∧ t.trace = [.tx 20] := ⟨_, rfl, by decide⟩

/-- V-R6: `fault` stays set. -/
theorem test_reset_keeps_fault :
    ∃ t, exec .reset { blk with fault := some (.respNoWrite 0x300) } = .next t ∧ t.fault = some (.respNoWrite 0x300) :=
  ⟨_, rfl, by decide⟩

/-- P1 line 2. -/
theorem test_start : ∃ t, exec .start blk = .next t ∧ t.status = 0x089 ∧ t.loff = 0 := ⟨_, rfl, by decide⟩

/-- V-H7. -/
theorem test_start_twice :
    ∃ t, exec .start (hdrAt 0) = .next t ∧ t.fault = some (.startNotIdle .hdr) ∧ t.status = 0x089 :=
  ⟨_, rfl, by decide⟩

/-- R101's example and V-D1. -/
theorem test_rx_acc :
    ∃ t, exec (.rxAcc 0x34) { blk with cnt := 1, acc := 0x12 } = .next t ∧ t.acc = 0x001234 ∧ t.status = 0x005 :=
  ⟨_, rfl, by decide⟩

/-- V-D2: the value is discarded. -/
theorem test_cg_pause :
    ∃ t, exec (.cgPause 0x56) { blk with cnt := 2, acc := 0x1234 } = .next t ∧ t.status = 0x000 ∧ t.loff = 0 :=
  ⟨_, rfl, by decide⟩

/-- V-D3. -/
theorem test_cg_resume :
    ∃ t, exec (.cgResume 0x56) { blk with sending := false, cnt := 2, acc := 0x1234 } = .next t ∧
      t.loff = 0x123456 ∧ t.status = 0x081 :=
  ⟨_, rfl, by decide⟩

/-- V-D12: b1 is the middle byte. -/
theorem test_cg_resume_middle_byte :
    ∃ t, exec (.cgResume 0x00) { blk with sending := false, cnt := 2, acc := 0x0001 } = .next t ∧ t.loff = 256 :=
  ⟨_, rfl, by decide⟩

/-- P1 line 10. -/
theorem test_tx_ok_hdr : ∃ t, exec .txOkHdr hdrBusy = .next t ∧ t.status = 0x491 := ⟨_, rfl, by decide⟩

/-- V-H8: WERR(HDR, 2). -/
theorem test_tx_err_hdr :
    ∃ t, exec .txErrHdr { hdrAt 2 with busy := true } = .next t ∧ t.trace = [.werr .hdr 2] ∧ t.status = 0x299 :=
  ⟨_, rfl, by decide⟩

/-- R114's example. -/
theorem test_tx_ok_pay : ∃ t, exec .txOkPay runBusy = .next t ∧ t.pos = 2 ∧ t.status = 0x451 := ⟨_, rfl, by decide⟩

/-- V-S4: WERR(PAY, 1), `pos` kept. -/
theorem test_tx_err_pay :
    ∃ t, exec .txErrPay runBusy = .next t ∧ t.trace = [.tx 20, .werr .pay 1] ∧ t.pos = 1 ∧ t.status = 0x411 :=
  ⟨_, rfl, by decide⟩

/-- V-R2. -/
theorem test_ok_with_nothing_in_flight :
    ∃ t, exec .txOkPay blk = .next t ∧ t.fault = some (.respNoWrite 0x300) ∧ t.pos = 0 := ⟨_, rfl, by decide⟩

/-- P1 line 3: ID_BYTE first. -/
theorem test_step_hdr_first :
    ∃ t, exec .stepHdr (hdrAt 0) = .next t ∧ t.trace = [.tx 0x41] ∧ t.status = 0x0A9 := ⟨_, rfl, by decide⟩

/-- V-H3: N = 0x123456, the third header byte is 0x34. -/
theorem test_step_hdr_middle :
    ∃ t, exec .stepHdr { hdrAt 2 with par := { par5 with payload := { size := 0x123456, cells := [] } } } = .next t ∧
      t.trace = [.tx 0x34] :=
  ⟨_, rfl, by decide⟩

/-- R112's example. -/
theorem test_step_pay_launch :
    ∃ t, exec .stepPay (runLaunch 3) = .next t ∧ t.trace = [.tx 40] ∧ t.pos = 3 ∧ t.status = 0x471 :=
  ⟨_, rfl, by decide⟩

/-- V-S3 and D6: at the end of the buffer DONE comes although `sending` is 0. -/
theorem test_step_pay_end_before_pause :
    ∃ t, exec .stepPay { runLive 5 with sending := false } = .next t ∧ t.trace = [.done] ∧ t.status = 0x410 :=
  ⟨_, rfl, by decide⟩

/-- V-R4. -/
theorem test_reserved_kind :
    ∃ t, exec (.reservedKind 5 0) blk = .next t ∧ t.fault = some (.reservedEvent 0x500) := ⟨_, rfl, by decide⟩

/-- V-R5: before RespNoWrite. -/
theorem test_reserved_data :
    ∃ t, exec (.reservedData 3 1) blk = .next t ∧ t.fault = some (.reservedEvent 0x301) := ⟨_, rfl, by decide⟩

/-- The memory laws on five bytes: PAYLOAD[3] is 40, and nothing stands at N. -/
theorem test_payload_read : par5.payload.read 3 = some 40 ∧ par5.payload.read 5 = none := by decide

/-- A zero byte is left out of the list and still reads as 0. -/
theorem test_payload_zero :
    (Memory.ofBytes [0, 7]).cells = [(1, 7)] ∧ (Memory.ofBytes [0, 7]).read 0 = some 0 ∧
      (Memory.ofBytes [0, 7]).wf = true := by decide

/-- The host's two definitions meet: the offered word is the next step. -/
theorem test_with_fetch_word : step (blk.withFetchWord 16 0x100) = exec .start blk := by rfl

/-! ### States that meet the invariants -/

theorem inv_blk : StateInv blk := by
  constructor <;> first | decide | exact fun _ h => absurd h (by decide)

theorem inv_hdrAt_first : StateInv (hdrAt 0) := by
  constructor <;> first | decide | exact fun _ h => absurd h (by decide)

theorem inv_hdrAt_last : StateInv (hdrAt 3) := by
  constructor <;> first | decide | exact fun _ h => absurd h (by decide)

theorem inv_failed : StateInv failed := by
  constructor <;> first | decide | exact fun _ h => absurd h (by decide)

theorem inv_runIdle : StateInv runIdle := by
  constructor <;> first | decide | exact fun _ h => absurd h (by decide)

theorem inv_runLaunch_top : StateInv (runLaunch 16777215) := by
  constructor <;> first | decide | exact fun _ h => absurd h (by decide)

theorem inv_runLive_end : StateInv (runLive 5) := by
  constructor <;> first | decide | exact fun _ h => absurd h (by decide)

theorem inv_hdrBusy : StateInv hdrBusy := by
  constructor <;> first | decide | exact fun _ _ => ⟨0x05, rfl, rfl⟩ | exact fun h => absurd h (by decide)

theorem inv_runBusy : StateInv runBusy := by
  constructor <;> first | decide | exact fun h => absurd h (by decide) | exact fun _ _ => ⟨rfl, by decide, rfl⟩

theorem inv_offering {s : State} (ts : List Turn) (h : StateInv s) : StateInv (offering ts s) := { h with }

/-! ### Inputs that meet the hypotheses of the obligations -/

theorem witness_DecodeOfEncodeIsTheReaction :
    ∀ p ∈ [((⟨1, false, .fail⟩ : Sel), Instr.rxAcc 0xFF), (⟨2, true, .idle⟩, .cgPause 0), (⟨3, false, .run⟩, .cgResume 0),
      (⟨0, true, .hdr⟩, .txOkHdr), (⟨0, true, .run⟩, .txErrPay), (⟨0, true, .hdr⟩, .stepHdr), (⟨0, true, .run⟩, .stepPay),
      (⟨0, true, .idle⟩, .reservedKind 5 0), (⟨0, true, .idle⟩, .reservedKind 7 0xFF),
      (⟨0, true, .idle⟩, .reservedData 0 1), (⟨0, true, .idle⟩, .reservedData 4 0xFF)],
      p.2.wellFormed = true ∧ p.2.selectedBy p.1 = true := by decide

theorem witness_GroupMeaningDependsOnSendingAlone :
    2 ≤ (⟨2, true, .idle⟩ : Sel).cnt.toNat ∧ 2 ≤ (⟨3, false, .run⟩ : Sel).cnt.toNat := by decide

theorem witness_ResetWritesEveryRegister : runBusy.fault = none := by decide

theorem witness_InvariantsHoldAfterReset : ∃ t, exec .reset runBusy = .next t := ⟨_, rfl⟩

theorem witness_EveryStepKeepsTheInvariants :
    (StateInv (offering [lineOk] hdrBusy) ∧ ∃ t, step (offering [lineOk] hdrBusy) = .next t) ∧
    (StateInv (offering [lineErr] runBusy) ∧ ∃ t, step (offering [lineErr] runBusy) = .next t) ∧
    (StateInv (offering [lineStep] (runLive 5)) ∧ ∃ t, step (offering [lineStep] (runLive 5)) = .next t) :=
  ⟨⟨inv_offering _ inv_hdrBusy, _, rfl⟩, ⟨inv_offering _ inv_runBusy, _, rfl⟩, ⟨inv_offering _ inv_runLive_end, _, rfl⟩⟩

theorem witness_EveryRunFromResetMeetsTheInvariants :
    (∃ t, runTurns [lineReset, lineStart, lineStep] runBusy = .next t ∧ t.fault = none ∧ t.phase ≠ .idle) ∧
    (∃ t, runTurns [lineReset, lineStart, lineReset] runBusy = .next t ∧ t.fault = none ∧ t.phase = .idle) :=
  ⟨⟨_, rfl, by decide⟩, ⟨_, rfl, by decide⟩⟩

theorem witness_NoReactionWritesTheParameters : ∃ t, step (offering [lineStep] (runLive 1)) = .next t := ⟨_, rfl⟩

theorem witness_CursorFitsInPtrWBits :
    StateInv (offering [lineStep] (runLaunch 16777215)) ∧ par5.ok = true ∧
      ∃ t, step (offering [lineStep] (runLaunch 16777215)) = .next t ∧ t.pos = 16777215 :=
  ⟨inv_offering _ inv_runLaunch_top, by decide, _, rfl, by decide⟩

theorem witness_PayloadsThatReadAlikeAreEqual :
    (Memory.ofBytes [0, 7, 0]).wf = true ∧ ({ size := 3, cells := [(1, 7)] } : Memory).wf = true ∧
      ∀ i, (Memory.ofBytes [0, 7, 0]).read i = ({ size := 3, cells := [(1, 7)] } : Memory).read i :=
  ⟨by decide, by decide, fun _ => rfl⟩

theorem witness_IllegalEventsRaiseTheirHostFault :
    violationOf { blk with wasReset := false } 0x201 = some (.eventBeforeReset 0x201) ∧
    violationOf blk 0x500 = some (.reservedEvent 0x500) ∧ violationOf blk 0x4FF = some (.reservedEvent 0x4FF) ∧
    violationOf (hdrAt 0) 0x100 = some (.startNotIdle .hdr) ∧ violationOf blk 0x400 = some (.respNoWrite 0x400) ∧
    violationOf blk 0x2FF = none ∧ violationOf hdrBusy 0x300 = none ∧
    (∃ t, step (offering [.event 0x2FF] blk) = .next t) :=
  ⟨by decide, by decide, by decide, by decide, by decide, by decide, by decide, _, rfl⟩

theorem witness_EventsBeforeResetAreHostFaults :
    encode (.rxAcc 1) = .event 0x201 ∧ encode (.reservedKind 7 0xFF) = .event 0x7FF ∧
      ({ blk with wasReset := false } : State).wasReset = false := by decide

theorem witness_ReservedEventsAreHostFaults : runBusy.wasReset = true := by decide

theorem witness_ResponseWithNothingInFlightIsHostFault : blk.wasReset = true ∧ blk.busy = false := by decide

theorem witness_AFaultIsSticky :
    (∃ t, step (offering [lineReset] { runBusy with fault := some (.reservedEvent 0x500) }) = .next t) ∧
    (∃ t, step (offering [.event 0x700] { runBusy with fault := some (.reservedEvent 0x500) }) = .next t) :=
  ⟨⟨_, rfl⟩, ⟨_, rfl⟩⟩

theorem witness_LegalEventInAFaultedStateStops :
    violationOf { blk with fault := some (.respNoWrite 0x300) } 0x200 = none ∧
      step (offering [.event 0x200] { blk with fault := some (.respNoWrite 0x300) }) = .fault (.faulted (.respNoWrite 0x300)) :=
  ⟨by decide, rfl⟩

theorem witness_EveryOfferedEventIsTaken :
    StateInv (offering [.event 0x7FF] failed) ∧ (offering [.event 0x7FF] failed).fault = none :=
  ⟨inv_offering _ inv_failed, by decide⟩

theorem witness_TheOnlyStops :
    (StateInv (offering [lineStep] runIdle) ∧ step (offering [lineStep] runIdle) = .refused .stepNotEnabled) ∧
    (∃ s f, StateInv s ∧ step s = .fault f) :=
  ⟨⟨inv_offering _ inv_runIdle, rfl⟩,
    offering [lineStart] { blk with fault := some (.respNoWrite 0x300) }, _, { inv_blk with }, rfl⟩

theorem witness_FormsThatAreNotSelectedStop :
    (Accepting { blk with cnt := 2 } ∧ Accepting { blk with cnt := 1, sending := false } ∧
      Accepting { blk with cnt := 3, sending := false }) ∧
    (Accepting hdrBusy ∧ hdrBusy.busy = true ∧ hdrBusy.phase ≠ .run) ∧
    (Accepting runBusy ∧ runBusy.busy = true ∧ runBusy.phase ≠ .hdr) ∧
    hdrBusy.hdrEnabled = false ∧ runIdle.payEnabled = false ∧ (hdrAt 4).hdrEnabled = true :=
  ⟨⟨⟨rfl, rfl⟩, ⟨rfl, rfl⟩, ⟨rfl, rfl⟩⟩, ⟨⟨rfl, rfl⟩, by decide⟩, ⟨⟨rfl, rfl⟩, by decide⟩, by decide⟩

theorem witness_RxIsEnabledInEveryPhase :
    (Accepting (offering [lineRx 0xFF] failed) ∧ Accepting (offering [lineRx 0] { hdrBusy with cnt := 2 })) ∧
    ({ blk with wasReset := false } : State).fault = none :=
  ⟨⟨⟨rfl, rfl⟩, ⟨rfl, rfl⟩⟩, rfl⟩

theorem witness_RxAccShiftsTheByteIn :
    (Accepting blk ∧ blk.cnt.toNat < 2 ∧ blk.acc = 0) ∧
    (Accepting { blk with cnt := 1, acc := 0xFF } ∧ (1 : BitVec 2).toNat < 2 ∧ (0xFF : Value).toNat < 65536) :=
  ⟨⟨⟨rfl, rfl⟩, by decide⟩, ⟨rfl, rfl⟩, by decide⟩

theorem witness_PauseGroupClearsSending :
    Accepting { runBusy with cnt := 2, acc := 0xFFFF } ∧ 2 ≤ (2 : BitVec 2).toNat ∧ runBusy.sending = true :=
  ⟨⟨rfl, rfl⟩, by decide⟩

theorem witness_ResumeGroupRequestsALaunch :
    Accepting { failed with sending := false, cnt := 2, acc := 0xFFFF } ∧ 2 ≤ (2 : BitVec 2).toNat :=
  ⟨⟨rfl, rfl⟩, by decide⟩

theorem witness_ThreeBytesMakeTheControlValue :
    (Accepting blk ∧ blk.cnt = 0 ∧ blk.sending = true) ∧
    (Accepting { blk with sending := false } ∧ ({ blk with sending := false } : State).cnt = 0) :=
  ⟨⟨⟨rfl, rfl⟩, by decide⟩, ⟨rfl, rfl⟩, rfl⟩

theorem witness_EachGroupTogglesSending :
    (∃ t, runTurns (lineReset :: pauseGroup) runBusy = .next t ∧ t.sending = false) ∧
    (∃ t, runTurns (lineReset :: (pauseGroup ++ resumeGroup 3)) runBusy = .next t ∧ t.sending = true) :=
  ⟨⟨_, rfl, by decide⟩, ⟨_, rfl, by decide⟩⟩

/-- V-D10, and V-D7's other events among the bytes. -/
theorem witness_DecoderStateDependsOnTheBytesAlone :
    (∃ t, runTurns [lineReset, lineRx 1, lineRx 2, lineReset, lineRx 3] blk = .next t ∧ t.cnt = 1 ∧ t.acc = 3) ∧
    (∃ t, runTurns [lineReset, lineRx 0x12, lineStart, lineStep, lineRx 0x34, lineOk] blk = .next t ∧ t.acc = 0x1234) :=
  ⟨⟨_, rfl, by decide⟩, ⟨_, rfl, by decide⟩⟩

theorem witness_OnlyGroupCompletionWritesSending :
    (∃ t, step (offering [lineRx 0] { blk with cnt := 2 }) = .next t ∧ t.sending ≠ blk.sending) ∧
    (∃ t, step (offering [lineReset] { blk with sending := false }) = .next t ∧ t.sending ≠ false) :=
  ⟨⟨_, rfl, by decide⟩, ⟨_, rfl, by decide⟩⟩

theorem witness_RxAndResponseCommute :
    (Accepting { hdrBusy with cnt := 2 } ∧ hdrBusy.busy = true ∧ hdrBusy.phase = .hdr) ∧
    (Accepting runBusy ∧ runBusy.busy = true ∧ runBusy.phase = .run) :=
  ⟨⟨⟨rfl, rfl⟩, by decide⟩, ⟨rfl, rfl⟩, by decide⟩

theorem witness_StartBeginsTheTransfer :
    (blk.wasReset = true ∧ blk.phase = .idle ∧ blk.fault = none) ∧ (failed.wasReset = true ∧ failed.phase ≠ .idle) := by
  decide

theorem witness_StepHdrEmitsTheHeaderByte :
    ∀ h ∈ [(0 : BitVec 3), 1, 2, 3],
      Accepting (hdrAt h) ∧ (hdrAt h).busy = false ∧ (hdrAt h).phase = .hdr ∧ (hdrAt h).hidx.toNat ≤ 3 := by
  unfold Accepting; decide

theorem witness_HeaderDrainAdvancesTheHeader :
    (hdrBusy.wasReset = true ∧ hdrBusy.phase = .hdr ∧ hdrBusy.fault = none ∧ hdrBusy.busy = true ∧ hdrBusy.hidx + 1 = 4) ∧
    ((hdrAt 0).wasReset = true ∧ (hdrAt 0).phase = .hdr ∧ (hdrAt 0).busy = false) := by decide

theorem witness_HeaderErrorFailsTheTransfer :
    (hdrBusy.wasReset = true ∧ hdrBusy.phase = .hdr ∧ hdrBusy.fault = none ∧ hdrBusy.busy = true) ∧
    ((hdrAt 3).wasReset = true ∧ (hdrAt 3).phase = .hdr ∧ (hdrAt 3).busy = false) := by decide

/-- V-H1, with a pause among the header's lines (V-H9). -/
theorem witness_HeaderLaw :
    blk.fault = none ∧ blk.par.payload.size ≤ 16777215 ∧ (headerRun).filter (fun t => !t.isRx) = lineStart :: headerLines ∧
      (pauseGroup ++ headerRun ++ [lineRx 0]).filter (fun t => !t.isRx) = lineStart :: headerLines := by decide

theorem witness_HeaderIgnoresSendState :
    (∃ u, exec .stepHdr { hdrAt 0 with sending := false } = .next u) ∧ (∃ u, exec .txOkHdr hdrBusy = .next u) :=
  ⟨⟨_, rfl⟩, ⟨_, rfl⟩⟩

theorem witness_FailIsTerminalUntilReset :
    (failed.phase = .fail ∧ ∃ t, step (offering [lineRx 7] failed) = .next t ∧ t.cnt = 1) ∧
      ∃ t, step (offering [lineReset] failed) = .next t :=
  ⟨⟨by decide, _, rfl, by decide⟩, _, rfl⟩

theorem witness_PhaseMoves :
    (∃ t, step (offering [lineStart] blk) = .next t ∧ t.phase ≠ blk.phase) ∧
    (∃ t, step (offering [lineOk] hdrBusy) = .next t ∧ t.phase = .run) ∧
    (∃ t, step (offering [lineErr] hdrBusy) = .next t ∧ t.phase = .fail) ∧
    (∃ t, step (offering [lineReset] hdrBusy) = .next t ∧ t.phase = .idle) :=
  ⟨⟨_, rfl, by decide⟩, ⟨_, rfl, by decide⟩, ⟨_, rfl, by decide⟩, ⟨_, rfl, by decide⟩⟩

theorem witness_StepHappensExactlyWhenEnabled :
    (StateInv (offering [lineStep] (hdrAt 0)) ∧ (hdrAt 0).stepEnabled = true) ∧
    (StateInv (offering [lineStep] runIdle) ∧ runIdle.stepEnabled = false) :=
  ⟨⟨inv_offering _ inv_hdrAt_first, by decide⟩, inv_offering _ inv_runIdle, by decide⟩

/-- At N, just below N, and just below N while paused. -/
theorem witness_StepPayTakesTheNextAction :
    (Accepting (runLaunch 5) ∧ (runLaunch 5).busy = false ∧ (runLaunch 5).phase = .run ∧ (runLaunch 5).lreq = true ∧
      par5.payload.size ≤ 5) ∧
    (Accepting (runLive 4) ∧ (runLive 4).busy = false ∧ (runLive 4).act = true ∧ 4 < par5.payload.size ∧
      (runLive 4).sending = true) ∧
    Accepting { runLive 4 with sending := false } :=
  ⟨⟨⟨rfl, rfl⟩, by decide⟩, ⟨⟨rfl, rfl⟩, by decide⟩, ⟨rfl, rfl⟩⟩

theorem witness_PayloadDrainAdvancesTheCursor :
    (runBusy.wasReset = true ∧ runBusy.phase = .run ∧ runBusy.fault = none ∧ runBusy.busy = true ∧ runBusy.act = true) ∧
    (runIdle.wasReset = true ∧ runIdle.phase = .run ∧ runIdle.busy = false) := by decide

theorem witness_PayloadErrorEndsTheInvocation :
    (runBusy.wasReset = true ∧ runBusy.phase = .run ∧ runBusy.fault = none ∧ runBusy.busy = true) ∧
    (runIdle.wasReset = true ∧ runIdle.phase = .run ∧ runIdle.busy = false) := by decide

/-- A launch at 3 of 5 (L1-7's tail), and one at N. -/
theorem witness_InvocationEmitsTheTailThenDone :
    (Accepting (runLaunch 3) ∧ (runLaunch 3).lreq = true ∧ (runLaunch 3).sending = true ∧ (runLaunch 3).busy = false ∧
      (runLaunch 3).phase = .run ∧
      (lineRx 9 :: (xfer ++ [lineRx 9] ++ xfer ++ [lineStep])).filter (fun t => !t.isRx) =
        (List.replicate (par5.payload.size - 3) xfer).flatten ++ [lineStep] ∧
      (runLaunch 3).cnt.toNat +
        ((lineRx 9 :: (xfer ++ [lineRx 9] ++ xfer ++ [lineStep])).filter Turn.isRx).length < 3) ∧
    [lineStep].filter (fun t => !t.isRx) = (List.replicate (par5.payload.size - 5) xfer).flatten ++ [lineStep] :=
  ⟨⟨⟨rfl, rfl⟩, by decide⟩, by decide⟩

theorem witness_BytesAreWrittenOnlyWhenFreeAndSending :
    (∃ t, step (offering [lineStep] (hdrAt 3)) = .next t ∧ t.trace = (hdrAt 3).trace ++ [.tx 0x05]) ∧
    (∃ t, step (offering [lineStep] (runLive 4)) = .next t ∧ t.trace = (runLive 4).trace ++ [.tx 50]) :=
  ⟨⟨_, rfl, by decide⟩, ⟨_, rfl, by decide⟩⟩

theorem witness_OneOutcomeAReaction :
    (∃ t, step (offering [lineStep] (runLive 5)) = .next t ∧ t.trace = (runLive 5).trace ++ [.done]) ∧
    (∃ t, step (offering [lineErr] runBusy) = .next t ∧ t.trace = runBusy.trace ++ [.werr .pay 1]) ∧
    (∃ t, step (offering [lineErr] hdrBusy) = .next t ∧ t.trace = hdrBusy.trace ++ [.werr .hdr 3]) ∧
    (∃ t, step (offering [] (runLive 4)) = .next t ∧ t.trace = (runLive 4).trace ++ [.tx 50]) :=
  ⟨⟨_, rfl, by decide⟩, ⟨_, rfl, by decide⟩, ⟨_, rfl, by decide⟩, ⟨_, rfl, by decide⟩⟩

theorem witness_DoneEndsTheInvocation :
    ∃ t, step (offering [lineStep] (runLaunch 16777215)) = .next t ∧ t.trace = (runLaunch 0).trace ++ [.done] :=
  ⟨_, rfl, by decide⟩

theorem witness_APausedEngineWritesNoPayload :
    ∃ t, runTurns [lineOk, lineRx 1, lineStep, lineRx 2] { runBusy with sending := false } = .next t ∧
      lineReset ∉ [lineOk, lineRx 1, lineStep, lineRx 2] ∧
      runBusy.cnt.toNat + ([lineOk, lineRx 1, lineStep, lineRx 2].filter Turn.isRx).length < 3 :=
  ⟨_, rfl, by decide⟩

theorem witness_AnEndedInvocationIsSilent :
    (∃ t, runTurns (pauseGroup ++ [lineRx 0, lineRx 0]) runIdle = .next t ∧
      lineReset ∉ pauseGroup ++ [lineRx 0, lineRx 0] ∧
      runIdle.cnt.toNat + ((pauseGroup ++ [lineRx 0, lineRx 0]).filter Turn.isRx).length < 6) ∧
    (∃ t, runTurns [lineRx 0, lineRx 0] { runIdle with sending := false } = .next t) :=
  ⟨⟨_, rfl, by decide⟩, ⟨_, rfl⟩⟩

theorem witness_ResumeInFlightSupersedes :
    Accepting { runBusy with cnt := 2, sending := false } ∧
      (({ runBusy with cnt := 2, sending := false } : State).acc.toNat * 256 + (4 : Byte).toNat) % 2 ^ 24 = 4 ∧
      4 < par5.payload.size ∧ ¬ 5 < par5.payload.size :=
  ⟨⟨rfl, rfl⟩, by decide⟩

theorem witness_PauseRaceAdmitsBothOrders :
    (Accepting { runLive 2 with cnt := 2 } ∧ 2 < par5.payload.size) ∧
    (Accepting { runLive 4 with cnt := 2 } ∧ 4 < par5.payload.size ∧ 4 + 1 = par5.payload.size) :=
  ⟨⟨⟨rfl, rfl⟩, by decide⟩, ⟨rfl, rfl⟩, by decide⟩

theorem witness_ReceiverRecoversAfterPayloadError :
    (Accepting runBusy ∧ runBusy.lreq = false ∧ runBusy.cnt = 0 ∧ runBusy.sending = true) ∧
    Accepting { runBusy with sending := false } :=
  ⟨⟨⟨rfl, rfl⟩, by decide⟩, ⟨rfl, rfl⟩⟩

/-- TX(40), TX(50), WERR(PAY, 4): the payload bytes stand at positions 0 and 1; a header byte stands at none. -/
theorem witness_PayloadContentReachesOnlyTxBytes :
    (∃ t, runTurns [lineStep, lineOk, lineStep, lineErr] (runLaunch 3) = .next t ∧
      t.trace = [.tx 40, .tx 50, .werr .pay 4] ∧
      payloadPositions [lineStep, lineOk, lineStep, lineErr] (runLaunch 3) = [0, 1]) ∧
    payloadPositions [lineStep, lineOk] (hdrAt 0) = [] :=
  ⟨⟨_, rfl, by decide⟩, by decide⟩

/-- Paused for ever in RUN (U6), after DONE too (V-S3), and in IDLE; the wait for a TX response. -/
theorem witness_APausedRunWaitsForAResume :
    Stalled { runIdle with sending := false } = true ∧ Stalled { blk with sending := false } = true ∧
    (Paused { runLive 2 with sending := false } = true ∧
      ∃ t, step (offering [lineStep] { runLive 2 with sending := false }) = .next t ∧ t.act = false) ∧
    (Accepting { runIdle with sending := false, cnt := 2 } ∧ Paused { runIdle with sending := false, cnt := 2 } = true) ∧
    (∃ t, exec .reset { runIdle with sending := false } = .next t) ∧ (runBusy.busy = true ∧ runBusy.schedule = []) ∧
    Complete runIdle = true :=
  ⟨by decide, by decide, ⟨by decide, _, rfl, by decide⟩, ⟨⟨rfl, rfl⟩, by decide⟩, ⟨_, rfl⟩, by decide, by decide⟩

/-- V-H5's N, 16,777,216, is a clean launch with PTR_W = 25. -/
theorem witness_CleanLaunchSendsTheHeaderForEveryN :
    CleanLaunch { blk with par := { payload := { size := 16777216, cells := [] }, idByte := 0x41, ptrW := 25 } } ∧
    CleanLaunch blk ∧ (blk.fault = none ∧ blk.par.ok = true) ∧
    (pauseGroup ++ headerRun).filter (fun t => !t.isRx) = lineStart :: headerLines :=
  ⟨⟨rfl, by decide⟩, ⟨rfl, by decide⟩, by decide, by decide⟩

theorem witness_AStepRunsTheDecodedReaction :
    (Instr.cgPause 1).wellFormed = true ∧ (Instr.cgPause 1).selectedBy ({ blk with cnt := 2 } : State).sel = true := by
  decide

theorem witness_WithNothingOfferedTheEngineMovesOrWaits :
    ((offering [] (hdrAt 0)).schedule = [] ∧ (hdrAt 0).stepEnabled = true) ∧
    (runIdle.schedule = [] ∧ runIdle.stepEnabled = false ∧ Complete runIdle = true) ∧ StateInv runIdle :=
  ⟨by decide, by decide, inv_runIdle⟩

theorem witness_StatusViewLayout : StateInv hdrBusy ∧ ∃ t, exec .reset hdrBusy = .next t := ⟨inv_hdrBusy, _, rfl⟩

end Sys2Proof.Tests
end

section
/-! SUPPORT. The ranges of the cursor and of the launch offset (spec/10_state.md R28, R30): one reaction keeps each, so
a step does, and under R8 both registers fit in PTR_W bits (R37). -/

namespace Sys2Proof.Machine

/-- No invariant reads the schedule. -/
theorem StateInv.withSchedule {s : State} (h : StateInv s) (q : List Turn) : StateInv { s with schedule := q } :=
  { h with }

theorem offsetOf_lt (v : Value) : offsetOf v < Config.offsetBound := v.isLt

/-- R28. Only TX_OK.PAY advances the cursor, and the byte in flight was at an index below N (I4); STEP.PAY may load it
from the launch offset (R112). -/
theorem Reacts.pos_le {s u : State} {t : Turn} (h : Reacts s t u) (hi : StateInv s) :
    u.pos ≤ max u.payloadSize Config.maxExactLength := by
  cases h with
  | reset => exact Nat.zero_le _
  | txOkPay hr hf hb hp =>
    obtain ⟨_, hpos, _⟩ := hi.run_flight hp hb
    exact le_max_of_le_left hpos
  | stepPay he =>
    have hpos := hi.pos_le
    have hloff : s.loff ≤ Config.maxExactLength := Nat.le_of_lt_succ hi.loff_lt
    simp only [State.payloadSize, streamOne_par, streamOne_pos, State.takeLaunch_par, State.takeLaunch_pos]
    split
    · exact le_max_of_le_right hloff
    · exact hpos
  | violation | start | rxAcc | cgPause | cgResume | txOkHdr | txErrHdr | txErrPay | stepHdr => exact hi.pos_le

/-- R30. A launch offset is START's 0 or a 24-bit Resume Offset. -/
theorem Reacts.loff_lt {s u : State} {t : Turn} (h : Reacts s t u) (hi : StateInv s) :
    u.loff < Config.offsetBound := by
  cases h with
  | reset | start => exact (by decide : 0 < Config.offsetBound)
  | cgResume => exact offsetOf_lt _
  | stepPay => simpa using hi.loff_lt
  | violation | rxAcc | cgPause | txOkHdr | txOkPay | txErrHdr | txErrPay | stepHdr => exact hi.loff_lt

/-- R28, R30: a step keeps the two ranges and the parameters they are measured against. -/
theorem step_cursor_range {s t : State} (hi : StateInv s) (h : step s = .next t) :
    t.par = s.par ∧ t.pos ≤ max t.payloadSize Config.maxExactLength ∧ t.loff < Config.offsetBound := by
  obtain ⟨_, _, rfl⟩ | ⟨_, rest, _, hr⟩ := step_reacts h
  · exact ⟨rfl, hi.pos_le, hi.loff_lt⟩
  · have hi' := hi.withSchedule rest
    exact ⟨hr.par, hr.pos_le hi', hr.loff_lt hi'⟩

theorem Params.ok_iff {p : Params} :
    p.ok = true ↔ p.payload.wf = true ∧ 24 ≤ p.ptrW ∧ p.payload.size < 2 ^ p.ptrW := by
  simp [Params.ok, and_assoc]

/-- R8, R37: PTR_W bits hold every index up to N and every 24-bit offset. -/
theorem State.cursor_fits_of_range {s : State} (hok : s.par.ok = true)
    (hpos : s.pos ≤ max s.payloadSize Config.maxExactLength) (hloff : s.loff < Config.offsetBound) :
    s.pos < 2 ^ s.par.ptrW ∧ s.loff < 2 ^ s.par.ptrW := by
  obtain ⟨_, hw, hN⟩ := Params.ok_iff.1 hok
  have hoff : Config.offsetBound ≤ 2 ^ s.par.ptrW := Nat.pow_le_pow_right (n := 2) (by decide) hw
  have hmax : Config.maxExactLength < 2 ^ s.par.ptrW := hoff
  exact ⟨hpos.trans_lt (max_lt hN hmax), hloff.trans_le hoff⟩

/-- Settles O12: the ranges of R28 and R30 hold before and after the step, and both lie below 2^PTR_W. -/
theorem cursorFitsInPtrWBits : Obligations.CursorFitsInPtrWBits := by
  intro s t hi hok h
  obtain ⟨hpar, hpos, hloff⟩ := step_cursor_range hi h
  have hs := State.cursor_fits_of_range hok hi.pos_le hi.loff_lt
  have ht := State.cursor_fits_of_range (hpar ▸ hok) hpos hloff
  rw [hpar] at ht
  exact ⟨hs.1, hs.2, ht.1, ht.2⟩

end Sys2Proof.Machine
end

section
/-! SUPPORT. What a step can do, told of the state before it: the wait, or one reaction of `Reacts` with the rest of the
schedule still to come. Each fact below about a step is a fact about one reaction, lifted by `step_turn`. -/

namespace Sys2Proof.Machine

/-- A step waits, or it is the reaction of one line; an event's line stands first in the schedule, while the engine may
also move with nothing offered. -/
theorem step_turn {s u : State} (h : step s = .next u) :
    u = s ∨ ∃ t, (∀ w, t = .event w → s.schedule.head? = some t) ∧
      Reacts { s with schedule := u.schedule } t u := by
  obtain ⟨_, _, rfl⟩ | ⟨t, rest, hq, hr⟩ := step_reacts h
  · exact .inl rfl
  · have hrest : u.schedule = rest := hr.schedule
    refine .inr ⟨t, fun w hw => ?_, by rwa [hrest]⟩
    obtain hq | ⟨_, _, ht⟩ := hq
    · rw [hq]; rfl
    · cases hw.symm.trans ht

/-! ### The parameters -/

theorem step_par {s t : State} (h : step s = .next t) : t.par = s.par := by
  obtain rfl | ⟨_, _, hr⟩ := step_turn h
  · rfl
  · exact hr.par

/-- Settles O11: `par` holds N, PAYLOAD, ID_BYTE and PTR_W, and every reaction keeps it. -/
theorem noReactionWritesTheParameters : Obligations.NoReactionWritesTheParameters := by
  intro s t h
  have hpar := step_par h
  exact ⟨hpar, fun i => by rw [hpar]⟩

/-! ### A recorded fault -/

/-- R31, R157: while `fault` is set, a reaction is a further violation, which changes nothing, or RESET. -/
theorem Reacts.of_fault {s u : State} {t : Turn} {r : HostFault} (h : Reacts s t u) (hf : s.fault = some r) :
    u = s ∨ (t = lineReset ∧ u = s.clearRegisters) := by
  cases h with
  | reset => exact .inr ⟨lineReset_eq.symm, rfl⟩
  | violation w r' hv =>
    left
    simp only [hf, Option.some_or]
    rw [← hf]
  | start _ hn | rxAcc _ _ hn | cgPause _ _ hn | cgResume _ _ hn | txOkHdr _ hn | txOkPay _ hn | txErrHdr _ hn
  | txErrPay _ hn => cases hf.symm.trans hn
  | stepHdr b he _ => cases hf.symm.trans (hdrEnabled_iff.1 he).2.1
  | stepPay he => cases hf.symm.trans (payEnabled_iff.1 he).2.1

/-- A fault is never cleared: a reaction that ends without one began without one. -/
theorem Reacts.fault_none {s u : State} {t : Turn} (h : Reacts s t u) (hu : u.fault = none) : s.fault = none := by
  cases hf : s.fault with
  | none => rfl
  | some r =>
    obtain rfl | ⟨_, rfl⟩ := h.of_fault hf
    · exact hf.symm.trans hu
    · exact hf.symm.trans hu

/-- Settles O18: the wait, a further violation and RESET are the only steps of a faulted state. -/
theorem aFaultIsSticky : Obligations.AFaultIsSticky := by
  intro s t r hf h
  obtain rfl | ⟨x, hx, hr⟩ := step_turn h
  · exact ⟨hf, rfl, .inl rfl⟩
  · obtain ht | ⟨rfl, ht⟩ := hr.of_fault hf
    · exact ⟨by rw [ht]; exact hf, by rw [ht], .inl ht⟩
    · exact ⟨by rw [ht]; exact hf, by rw [ht]; rfl, .inr ⟨hx _ rfl, congrArg _ ht.symm⟩⟩

/-- An event that breaks no rule stops on the recorded fault, whatever its row and form (R31). -/
theorem hostEvent_faulted {w : EventWord} {viol : Option HostFault} {sel : Bool} {s t : State} {r : HostFault}
    (hviol : violationOf s w = if s.wasReset = false then some (.eventBeforeReset w) else viol)
    (hv : violationOf s w = none) (hr : s.wasReset = true) (hf : s.fault = some r) :
    hostEvent w viol sel s t = .fault (.faulted r) := by
  rw [hv, if_neg (by simp [hr])] at hviol
  exact hostEvent_fault.2 ⟨hr, hviol.symm, r, hf, rfl⟩

theorem exec_legal_of_fault {s : State} {w : EventWord} {r : HostFault} (hr : s.wasReset = true)
    (hf : s.fault = some r) (hw : w ≠ 0x000) (hv : violationOf s w = none) :
    exec (decodeTurn s.sel (.event w)) s = .fault (.faulted r) := by
  rw [decodeTurn]
  obtain rfl | rfl | ⟨b, rfl⟩ | rfl | rfl | ⟨k, d, rfl, hk⟩ | ⟨k, d, rfl, hk, hd⟩ := eventWord_cases w
  · exact absurd (by decide) hw
  · rw [decodeEvent_start]; exact hostEvent_faulted (violationOf_start s) hv hr hf
  · rw [decodeEvent_rx, decodeRx]
    split
    · exact hostEvent_faulted (violationOf_rx s b) hv hr hf
    · split <;> exact hostEvent_faulted (violationOf_rx s b) hv hr hf
  · rw [decodeEvent_ok]; split <;> exact hostEvent_faulted (violationOf_ok s) hv hr hf
  · rw [decodeEvent_err]; split <;> exact hostEvent_faulted (violationOf_err s) hv hr hf
  · rw [violationOf_reserved s (reservedWord_kind hk d), if_neg (by simp [hr])] at hv; cases hv
  · rw [violationOf_reserved s (reservedWord_data hk hd), if_neg (by simp [hr])] at hv; cases hv

/-- Settles O19: the step reads the offered word, and every row's meaning stops on the recorded fault. -/
theorem legalEventInAFaultedStateStops : Obligations.LegalEventInAFaultedStateStops := by
  intro s w rest r hr hf hq hw hv
  rw [step_cons hq]
  exact exec_legal_of_fault (s := { s with schedule := rest }) hr hf hw hv

/-! ### Send State -/

/-- R21, R38: every writer of `sending`. -/
theorem Reacts.sending_cases {s u : State} {t : Turn} (h : Reacts s t u) :
    u.sending = s.sending ∨ t = lineReset ∨ (2 ≤ s.cnt.toNat ∧ ∃ b, t = lineRx b) := by
  cases h with
  | reset => exact .inr (.inl lineReset_eq.symm)
  | cgPause b _ _ hc | cgResume b _ _ hc => exact .inr (.inr ⟨Nat.le_of_not_lt hc, b, (lineRx_eq b).symm⟩)
  | stepPay => left; simp
  | violation | start | rxAcc | txOkHdr | txOkPay | txErrHdr | txErrPay | stepHdr => exact .inl rfl

/-- Settles O30: neither the wait nor a reaction other than RESET and the two group completions writes `sending`. -/
theorem onlyGroupCompletionWritesSending : Obligations.OnlyGroupCompletionWritesSending := by
  intro s t h hne
  obtain rfl | ⟨x, hx, hr⟩ := step_turn h
  · exact absurd rfl hne
  · obtain hs | rfl | ⟨hc, b, rfl⟩ := hr.sending_cases
    · exact absurd hs hne
    · exact .inl (hx _ rfl)
    · exact .inr ⟨hc, b, hx _ rfl⟩

/-! ### Phases -/

theorem hidx_succ_eq_four {h : BitVec 3} : h + 1 = 4 ↔ h = 3 := by
  revert h; decide

/-- R24: a reaction keeps the phase, or it is one of the four moves, with the guard of its rule (R130, R132, R133,
R180). -/
theorem Reacts.phase_cases {s u : State} {t : Turn} (h : Reacts s t u) :
    u.phase = s.phase ∨
    (s.phase = .idle ∧ u.phase = .hdr ∧ t = lineStart) ∨
    (s.phase = .hdr ∧ u.phase = .run ∧ s.hidx = 3 ∧ s.busy = true ∧ t = lineOk) ∨
    (s.phase = .hdr ∧ u.phase = .fail ∧ s.busy = true ∧ t = lineErr) ∨
    (u.phase = .idle ∧ t = lineReset) := by
  cases h with
  | reset => exact .inr (.inr (.inr (.inr ⟨rfl, lineReset_eq.symm⟩)))
  | start _ _ hp => exact .inr (.inl ⟨hp, rfl, lineStart_eq.symm⟩)
  | txOkHdr _ _ hb hp =>
    by_cases h4 : s.hidx + 1 = 4
    · exact .inr (.inr (.inl ⟨hp, if_pos h4, hidx_succ_eq_four.1 h4, hb, lineOk_eq.symm⟩))
    · exact .inl (if_neg h4)
  | txErrHdr _ _ hb hp => exact .inr (.inr (.inr (.inl ⟨hp, rfl, hb, lineErr_eq.symm⟩)))
  | stepPay => left; simp
  | violation | rxAcc | cgPause | cgResume | txOkPay | txErrPay | stepHdr => exact .inl rfl

/-- Settles O40: the moves of one reaction, told of the line a step takes. -/
theorem phaseMoves : Obligations.PhaseMoves := by
  intro s t h hne
  obtain rfl | ⟨x, hx, hr⟩ := step_turn h
  · exact absurd rfl hne
  · obtain hp | ⟨hs, ht, rfl⟩ | ⟨hs, ht, h3, hb, rfl⟩ | ⟨hs, ht, hb, rfl⟩ | ⟨ht, rfl⟩ := hr.phase_cases
    · exact absurd hp hne
    · exact .inl ⟨hs, ht, hx _ rfl⟩
    · exact .inr (.inl ⟨hs, ht, h3, hb, hx _ rfl⟩)
    · exact .inr (.inr (.inl ⟨hs, ht, hb, hx _ rfl⟩))
    · exact .inr (.inr (.inr ⟨ht, hx _ rfl⟩))

theorem stepEnabled_phase {s : State} (h : s.stepEnabled = true) : s.phase = .hdr ∨ s.phase = .run := by
  obtain he | he := stepEnabled_iff.1 h
  · obtain ⟨_, _, _, hp⟩ := hdrEnabled_iff.1 he
    exact .inl hp
  · obtain ⟨_, _, _, hp, _⟩ := payEnabled_iff.1 he
    exact .inr hp

/-- R10: an output belongs to a phase in which the engine works; every other reaction keeps the trace. -/
theorem Reacts.trace_eq {s u : State} {t : Turn} (h : Reacts s t u) (hp : s.phase ≠ .hdr) (hp' : s.phase ≠ .run) :
    u.trace = s.trace := by
  cases h with
  | reset | violation | start | rxAcc | cgPause | cgResume | txOkHdr | txOkPay => rfl
  | txErrHdr _ _ _ hh => exact absurd hh hp
  | txErrPay _ _ _ hh => exact absurd hh hp'
  | stepHdr b he => exact absurd (hdrEnabled_iff.1 he).2.2.2 hp
  | stepPay he => exact absurd (payEnabled_iff.1 he).2.2.2.1 hp'

/-- Settles O39: the only move out of FAIL is RESET's, and outputs come in HDR and RUN alone. -/
theorem failIsTerminalUntilReset : Obligations.FailIsTerminalUntilReset := by
  intro s t hp h
  have hidle : s.stepEnabled = false := by
    by_contra he
    obtain hh | hh := stepEnabled_phase (by simpa using he) <;> cases hp.symm.trans hh
  refine ⟨hidle, ?_⟩
  obtain rfl | ⟨x, hx, hr⟩ := step_turn h
  · exact .inr ⟨hp, rfl⟩
  · have htr : t.trace = s.trace := hr.trace_eq (by simp [hp]) (by simp [hp])
    obtain ht | ⟨hs, _⟩ | ⟨hs, _⟩ | ⟨hs, _⟩ | ⟨_, rfl⟩ := hr.phase_cases
    · exact .inr ⟨ht.trans hp, htr⟩
    · cases hp.symm.trans hs
    · cases hp.symm.trans hs
    · cases hp.symm.trans hs
    · exact .inl (hx _ rfl)

end Sys2Proof.Machine
end

section
/-! SUPPORT. The invariants of spec/10_state.md R32: they hold after RESET, one reaction keeps them, so a step and a run
do; beside them I8, the number of STARTs since the last RESET. -/

namespace Sys2Proof.Machine

/-! ### After RESET -/

/-- Every register stands at its value of R181, whatever the state before. -/
theorem clearRegisters_stateInv (s : State) : StateInv s.clearRegisters where
  taken := rfl
  cnt_le := by simp
  acc_zero := fun _ => rfl
  acc_one := by simp
  acc_two := by simp
  busy_phase := by simp
  hdr_hidx := by simp
  hdr_flight := by simp
  run_flight := by simp
  idle_clear := fun _ => ⟨rfl, rfl, rfl⟩
  act_run := by simp
  run_hidx := by simp
  fail_hidx := by simp
  hdr_lreq := by simp
  pos_le := Nat.zero_le _
  loff_lt := (by decide : 0 < Config.offsetBound)

/-- Settles O8: State.reset is its own RESET. -/
theorem invariantsHoldAfterReset : Obligations.InvariantsHoldAfterReset := by
  refine ⟨clearRegisters_stateInv State.reset, fun s t h => ?_⟩
  cases h
  exact clearRegisters_stateInv s

/-! ### One reaction -/

@[simp] theorem lastTx_writeByte (s : State) (b : Byte) : (s.writeByte b).lastTx b := by
  simp [State.lastTx]

theorem cnt_of_lt_two {c : BitVec 2} (h : c.toNat < 2) : c = 0 ∨ c = 1 := by
  revert h; revert c; decide

/-- I1 over RX.ACC: the byte shifted in is the first or the second of its group. -/
theorem StateInv.rxAcc {s : State} (hi : StateInv s) (hc : s.cnt.toNat < 2) (b : Byte) :
    StateInv { s with acc := shiftIn s.acc b, cnt := s.cnt + 1 } := by
  have hb : b.toNat < 256 := b.isLt
  have hacc := shiftIn_toNat s.acc b
  obtain h | h := cnt_of_lt_two hc
  · have ha : s.acc.toNat = 0 := by simp [hi.acc_zero h]
    exact { hi with
      cnt_le := by simp [h]
      acc_zero := by simp [h]
      acc_one := fun _ => by dsimp only; omega
      acc_two := by simp [h] }
  · have ha := hi.acc_one h
    exact { hi with
      cnt_le := by simp [h]
      acc_zero := by simp [h]
      acc_one := by simp [h]
      acc_two := fun _ => by dsimp only; omega }

/-- I1 holds of an empty group, so closing a group keeps the invariants. -/
theorem StateInv.closeGroup {s : State} (hi : StateInv s) : StateInv s.closeGroup :=
  { hi with
    cnt_le := by simp
    acc_zero := fun _ => rfl
    acc_one := by simp
    acc_two := by simp }

/-- I6: outside RUN no invocation is live. -/
theorem StateInv.act_false {s : State} (hi : StateInv s) (hp : s.phase ≠ .run) : s.act = false := by
  cases ha : s.act with
  | false => rfl
  | true => exact absurd (hi.act_run ha) hp

/-- START finds an idle engine (I5) and leaves the request at 0 pending. -/
theorem StateInv.start {s : State} (hi : StateInv s) (hp : s.phase = .idle) :
    StateInv (State.requestLaunch 0 { s with phase := .hdr, hidx := 0 }) := by
  obtain ⟨hb, ha, _⟩ := hi.idle_clear hp
  exact { hi with
    busy_phase := by simp
    hdr_hidx := by simp
    hdr_flight := by simp [hb]
    run_flight := by simp
    idle_clear := by simp
    act_run := by simp [ha]
    run_hidx := by simp
    fail_hidx := by simp
    hdr_lreq := fun _ => rfl
    loff_lt := (by decide : 0 < Config.offsetBound) }

/-- A RESUME group's request replaces a pending one, in every phase. -/
theorem StateInv.resume {s : State} (hi : StateInv s) (v : Value) :
    StateInv (s.resumeSending.requestLaunch (offsetOf v)) :=
  { hi with
    hdr_lreq := fun _ => rfl
    loff_lt := offsetOf_lt v }

theorem hidx_succ_le_three {h : BitVec 3} (hle : h.toNat ≤ 3) (h4 : h + 1 ≠ 4) : (h + 1).toNat ≤ 3 := by
  revert h; decide

/-- I3 and I7 over TX_OK.HDR: the fourth drain enters RUN with index 4, an earlier one leaves an index below 4. -/
theorem StateInv.txOkHdr {s : State} (hi : StateInv s) (hp : s.phase = .hdr) :
    StateInv { s.answer with hidx := s.hidx + 1, phase := phaseAfterHeader (s.hidx + 1) s.phase } := by
  have hle := hi.hdr_hidx hp
  have ha := hi.act_false (by simp [hp])
  by_cases h4 : s.hidx + 1 = 4
  · rw [phaseAfterHeader, if_pos h4]
    exact { hi with
      busy_phase := by simp
      hdr_hidx := by simp
      hdr_flight := by simp
      run_flight := by simp
      idle_clear := by simp
      act_run := fun _ => rfl
      run_hidx := fun _ => h4
      fail_hidx := by simp
      hdr_lreq := by simp }
  · rw [phaseAfterHeader, if_neg h4, hp]
    exact { hi with
      busy_phase := by simp
      hdr_hidx := fun _ => hidx_succ_le_three hle h4
      hdr_flight := by simp
      run_flight := by simp
      idle_clear := by simp
      act_run := by simp [ha]
      run_hidx := by simp
      fail_hidx := by simp
      hdr_lreq := fun _ => hi.hdr_lreq hp }

/-- TX_ERR.HDR keeps the index of the byte that failed (R25, R133). -/
theorem StateInv.txErrHdr {s : State} (hi : StateInv s) (hp : s.phase = .hdr) (o : OutEvent) :
    StateInv { s.answer.emit o with phase := .fail } := by
  have hle := hi.hdr_hidx hp
  have ha := hi.act_false (by simp [hp])
  exact { hi with
    busy_phase := by simp
    hdr_hidx := by simp
    hdr_flight := by simp
    run_flight := by simp
    idle_clear := by simp
    act_run := by simp [ha]
    run_hidx := by simp
    fail_hidx := fun _ => hle
    hdr_lreq := by simp }

/-- I3 over STEP.HDR: the byte put in flight is header byte hidx. -/
theorem StateInv.stepHdr {s : State} {b : Byte} (hi : StateInv s) (hp : s.phase = .hdr)
    (hb : s.headerByte s.hidx = some b) : StateInv (s.writeByte b) :=
  { hi with
    busy_phase := fun _ => .inl hp
    hdr_flight := fun _ _ => ⟨b, hb, lastTx_writeByte s b⟩
    run_flight := by simp [hp]
    idle_clear := by simp [hp] }

/-- In RUN with nothing in flight the engine may end the invocation, take the request and move the cursor, and emit:
the invariants ask only that the cursor stays in its range. -/
theorem StateInv.freeRun {s : State} (hi : StateInv s) (hp : s.phase = .run) {p : Nat} (a l : Bool)
    (os : List OutEvent) (hpos : p ≤ max s.payloadSize Config.maxExactLength) :
    StateInv { s with busy := false, act := a, pos := p, lreq := l, trace := os } :=
  { hi with
    busy_phase := by simp
    hdr_hidx := by simp [hp]
    hdr_flight := by simp
    run_flight := by simp
    idle_clear := by simp [hp]
    act_run := fun _ => hp
    hdr_lreq := by simp [hp]
    pos_le := hpos }

/-- I4 over STEP.PAY: a byte is written only below N, from the cursor, with the invocation live. -/
theorem StateInv.stepPay {s : State} (hi : StateInv s) (he : s.payEnabled = true) :
    StateInv (streamOne s.takeLaunch) := by
  obtain ⟨_, _, hb, hp, hl⟩ := payEnabled_iff.1 he
  have hpos : s.streamIndex ≤ max s.payloadSize Config.maxExactLength := by
    simpa [State.streamIndex, State.payloadSize] using (Reacts.stepPay he).pos_le hi
  obtain ⟨_, e⟩ | ⟨_, _, e⟩ | ⟨hlt, _, e⟩ := stream_out s hl
  · rw [e, hb]; exact hi.freeRun hp false false _ hpos
  · rw [e, hb]; exact hi.freeRun hp false false _ hpos
  · rw [e]
    exact { hi.freeRun hp true false [] hpos with
      busy_phase := fun _ => .inr hp
      hdr_flight := by simp [hp]
      run_flight := fun _ _ => ⟨rfl, hlt, by simp [State.lastTx, State.payloadByte]⟩
      idle_clear := by simp [hp] }

/-- One reaction keeps the invariants. -/
theorem Reacts.stateInv {s u : State} {t : Turn} (h : Reacts s t u) (hi : StateInv s) : StateInv u := by
  have hpos := h.pos_le hi
  cases h with
  | reset => exact clearRegisters_stateInv s
  | violation => exact { hi with }
  | start _ _ hp => exact hi.start hp
  | rxAcc b _ _ hc => exact hi.rxAcc hc b
  | cgPause => exact StateInv.closeGroup { hi with }
  | cgResume => exact (hi.resume _).closeGroup
  | txOkHdr _ _ _ hp => exact hi.txOkHdr hp
  | txOkPay _ _ _ hp => exact hi.freeRun hp _ _ _ hpos
  | txErrHdr _ _ _ hp => exact hi.txErrHdr hp _
  | txErrPay _ _ _ hp => exact hi.freeRun hp _ _ _ hpos
  | stepHdr b he hb =>
    obtain ⟨_, _, _, hp⟩ := hdrEnabled_iff.1 he
    exact hi.stepHdr hp hb
  | stepPay he => exact hi.stepPay he

/-- Settles O9: the wait changes nothing, and every reaction keeps the invariants, which do not read the schedule. -/
theorem everyStepKeepsTheInvariants : Obligations.EveryStepKeepsTheInvariants := by
  intro s t hi h
  obtain rfl | ⟨_, _, hr⟩ := step_turn h
  · exact hi
  · exact hr.stateInv (hi.withSchedule _)

/-! ### Runs from RESET -/

/-- I8: how many STARTs a state without a fault has taken since the last RESET, read off its phase. -/
def State.startCount (s : State) : Nat := if s.phase = .idle then 0 else 1

theorem startCount_of_phase_eq {s u : State} (h : u.phase = s.phase) : u.startCount = s.startCount := by
  rw [State.startCount, h, State.startCount]

theorem startCount_of_ne_idle {s : State} (h : s.phase ≠ .idle) : s.startCount = 1 := if_neg h

/-- One turn of `startsAfterReset`. -/
def countStart (t : Turn) (n : Nat) : Nat :=
  if isResetTurn t then 0 else if isStartTurn t then n + 1 else n

theorem startsAfterReset_cons (n : Nat) (t : Turn) (ts : List Turn) :
    startsAfterReset n (t :: ts) = startsAfterReset (countStart t n) ts := by
  rw [startsAfterReset, countStart]
  split_ifs <;> rfl

theorem countStart_reset (n : Nat) : countStart (.event (mkEvent 0 0)) n = 0 := if_pos (by decide)

theorem countStart_start (n : Nat) : countStart (.event (mkEvent 1 0)) n = n + 1 :=
  (if_neg (by decide)).trans (if_pos (by decide))

theorem countStart_event {k : BitVec 3} (h0 : k ≠ 0#3) (h1 : k ≠ 1#3) (d : Byte) (n : Nat) :
    countStart (.event (mkEvent k d)) n = n := by
  simp [countStart, isResetTurn, isStartTurn, mkEvent_inj, h0, h1]

theorem countStart_engine (n : Nat) : countStart .engine n = n := rfl

/-- I8 over one reaction: START leaves IDLE, RESET enters it, and no other reaction does either; a second START would
be a violation. -/
theorem Reacts.startCount {s u : State} {t : Turn} (h : Reacts s t u) (hu : u.fault = none) :
    u.startCount = countStart t s.startCount := by
  cases h with
  | reset => exact (countStart_reset _).symm
  | violation => simp at hu
  | start _ _ hp => rw [countStart_start, State.startCount, State.startCount, if_pos hp]; rfl
  | rxAcc | cgPause | cgResume => rw [countStart_event (by decide) (by decide)]; rfl
  | txOkHdr _ _ _ hp =>
    have hu' : phaseAfterHeader (s.hidx + 1) s.phase ≠ .idle := by
      rw [phaseAfterHeader]; split <;> simp [hp]
    rw [countStart_event (by decide) (by decide), startCount_of_ne_idle (s := s) (by simp [hp])]
    exact startCount_of_ne_idle hu'
  | txOkPay | txErrPay => rw [countStart_event (by decide) (by decide)]; rfl
  | txErrHdr _ _ _ hp =>
    rw [countStart_event (by decide) (by decide), startCount_of_ne_idle (s := s) (by simp [hp])]
    rfl
  | stepHdr => rfl
  | stepPay => rw [countStart_engine]; exact startCount_of_phase_eq (by simp)

/-- The invariants hold, and unless a fault is recorded, the STARTs taken and those still to come are `n`. -/
def RunInv (n : Nat) (s : State) (ts : List Turn) : Prop :=
  StateInv s ∧ (s.fault = none → startsAfterReset s.startCount ts = n)

theorem RunInv.react {n : Nat} {s u : State} {t : Turn} {ts : List Turn} (h : RunInv n s (t :: ts))
    (hr : Reacts s t u) : RunInv n u ts := by
  obtain ⟨hi, hn⟩ := h
  refine ⟨hr.stateInv hi, fun hu => ?_⟩
  rw [hr.startCount hu, ← startsAfterReset_cons]
  exact hn (hr.fault_none hu)

theorem run_stateInv {n : Nat} {ts : List Turn} {s t : State} (h : RunInv n s ts) (hrun : runTurns ts s = .next t) :
    StateInv t ∧ (t.fault = none → t.startCount = n) :=
  run_induct (RunInv n) (fun t => StateInv t ∧ (t.fault = none → t.startCount = n))
    (fun _ h => ⟨h.1.withSchedule [], h.2⟩) (fun _ _ _ _ h hr => h.react hr) ts s t h hrun

/-- Settles O10: after RESET the count of the rest is the count of the whole run, and every reaction keeps it. -/
theorem everyRunFromResetMeetsTheInvariants : Obligations.EveryRunFromResetMeetsTheInvariants := by
  intro ts s t hrun hf
  have hreset : Reacts s lineReset s.clearRegisters := lineReset_eq ▸ .reset
  rw [runTurns_of_reacts hreset] at hrun
  obtain ⟨hi, hn⟩ := run_stateInv (n := startsAfterReset 0 ts) ⟨clearRegisters_stateInv s, fun _ => rfl⟩ hrun
  exact ⟨hi, (hn hf).symm⟩

end Sys2Proof.Machine
end

section
/-! SUPPORT. The STATUS view (spec/10_state.md R33): the number it spells, and its fields read back. -/

namespace Sys2Proof.Machine

theorem toNat_append_eq_add {m n : Nat} (x : BitVec m) (y : BitVec n) :
    (x ++ y).toNat = x.toNat * 2 ^ n + y.toNat := by
  rw [BitVec.toNat_append, ← Nat.shiftLeft_add_eq_or_of_lt y.isLt, Nat.shiftLeft_eq]

/-- R33's bit positions, as powers of two. -/
theorem status_toNat (s : State) : s.status.toNat =
    s.sending.toNat + 2 * s.cnt.toNat + 8 * (phaseCode s.phase).toNat + 32 * s.busy.toNat + 64 * s.act.toNat +
      128 * s.lreq.toNat + 256 * s.hidx.toNat := by
  have h11 : (0 : BitVec 1).toNat = 0 := rfl
  simp only [State.status, toNat_append_eq_add, BitVec.toNat_ofBool, h11]
  omega

/-- The fields below HIDX fill bits 7 to 0. -/
theorem status_low_lt (s : State) :
    s.sending.toNat + 2 * s.cnt.toNat + 8 * (phaseCode s.phase).toNat + 32 * s.busy.toNat + 64 * s.act.toNat +
      128 * s.lreq.toNat < 256 := by
  have hs := s.sending.toNat_lt
  have hc : s.cnt.toNat < 4 := s.cnt.isLt
  have hp : (phaseCode s.phase).toNat < 4 := (phaseCode s.phase).isLt
  have hb := s.busy.toNat_lt
  have ha := s.act.toNat_lt
  have hl := s.lreq.toNat_lt
  omega

theorem status_lt (s : State) : s.status.toNat < 2 ^ 11 := by
  have hlow := status_low_lt s
  have hh : s.hidx.toNat < 8 := s.hidx.isLt
  rw [status_toNat]
  omega

theorem status_cnt (s : State) : s.status.extractLsb' 1 2 = s.cnt := by
  apply BitVec.eq_of_toNat_eq
  have hs := s.sending.toNat_lt
  have hc : s.cnt.toNat < 4 := s.cnt.isLt
  rw [BitVec.extractLsb'_toNat, status_toNat, Nat.shiftRight_eq_div_pow]
  omega

theorem status_hidx (s : State) : s.status.extractLsb' 8 3 = s.hidx := by
  apply BitVec.eq_of_toNat_eq
  have hlow := status_low_lt s
  have hh : s.hidx.toNat < 8 := s.hidx.isLt
  rw [BitVec.extractLsb'_toNat, status_toNat, Nat.shiftRight_eq_div_pow]
  omega

/-- R25: every phase bounds the header index by 4. -/
theorem StateInv.hidx_le {s : State} (hi : StateInv s) : s.hidx.toNat ≤ 4 := by
  cases hp : s.phase with
  | idle =>
    obtain ⟨_, _, h0⟩ := hi.idle_clear hp
    simp [h0]
  | hdr => exact (hi.hdr_hidx hp).trans (by decide)
  | run => simp [hi.run_hidx hp]
  | fail => exact (hi.fail_hidx hp).trans (by decide)

/-- Settles O57: the layout as one sum, from which bit 11 and the fields CNT and HIDX are read back. -/
theorem statusViewLayout : Obligations.StatusViewLayout := by
  refine ⟨status_toNat, fun s => Nat.testBit_lt_two_pow (status_lt s), by decide, ?_, fun s hi => ⟨?_, ?_⟩⟩
  · intro s t h
    cases h
    change State.reset.status = 0x001
    decide
  · rw [status_cnt]
    intro h3
    have hle := hi.cnt_le
    rw [h3] at hle
    exact absurd hle (by decide)
  · rw [status_hidx]
    exact hi.hidx_le

end Sys2Proof.Machine
end

section
/-! SUPPORT. Two buffers that agree in length and in every byte: a listed index of a canonical buffer is seen by a read,
so both lists have the same head, and then the same tail (spec/20_memory.md R50, R59). -/

namespace Sys2Proof.Machine

@[simp] theorem cellAt_cons_same (a : Nat) (b : Byte) (cs : List Host.Cell) : cellAt ((a, b) :: cs) a = b := if_pos rfl

theorem cellAt_cons_of_ne {a i : Nat} (h : a ≠ i) (b : Byte) (cs : List Host.Cell) :
    cellAt ((a, b) :: cs) i = cellAt cs i := if_neg h

theorem cellsWf_cons {lo hi a : Nat} {b : Byte} {cs : List Host.Cell} :
    cellsWf lo hi ((a, b) :: cs) = true ↔
      lo ≤ a ∧ a < hi ∧ b ≠ Memory.unlisted ∧ cellsWf (a + 1) hi cs = true := by
  simp [cellsWf, and_assoc]

/-- The first listed index of a canonical list is read differently in a canonical list that starts above it. -/
theorem cellAt_head_ne {lo hi hi' a : Nat} {b : Byte} {cs cs' : List Host.Cell}
    (hw : cellsWf lo hi ((a, b) :: cs) = true) (hw' : cellsWf (a + 1) hi' cs' = true) :
    cellAt ((a, b) :: cs) a ≠ cellAt cs' a := by
  obtain ⟨_, _, hb, _⟩ := cellsWf_cons.1 hw
  rwa [cellAt_cons_same, cellAt_below (Nat.lt_succ_self a) hw']

/-- Canonical lists that give the same byte at every index below the bound are equal. -/
theorem cells_ext {hi : Nat} : ∀ {cs cs' : List Host.Cell} {lo lo' : Nat}, cellsWf lo hi cs = true →
    cellsWf lo' hi cs' = true → (∀ i < hi, cellAt cs i = cellAt cs' i) → cs = cs'
  | [], [], _, _, _, _, _ => rfl
  | (a, _) :: _, [], _, _, hw, _, h => by
    obtain ⟨_, ha, _⟩ := cellsWf_cons.1 hw
    exact absurd (h a ha) (cellAt_head_ne hw (hi' := hi) rfl)
  | [], (a, _) :: _, _, _, _, hw', h => by
    obtain ⟨_, ha, _⟩ := cellsWf_cons.1 hw'
    exact absurd (h a ha).symm (cellAt_head_ne hw' (hi' := hi) rfl)
  | (a, b) :: cs, (a', b') :: cs', _, _, hw, hw', h => by
    obtain ⟨_, ha, hb, htl⟩ := cellsWf_cons.1 hw
    obtain ⟨_, ha', hb', htl'⟩ := cellsWf_cons.1 hw'
    obtain hlt | rfl | hlt := lt_trichotomy a a'
    · exact absurd (h a ha) (cellAt_head_ne hw (cellsWf_cons.2 ⟨hlt, ha', hb', htl'⟩))
    · have hhead : b = b' := by simpa using h a ha
      have htail : ∀ i < hi, cellAt cs i = cellAt cs' i := by
        intro i hi'
        by_cases hai : a < i
        · simpa only [cellAt_cons_of_ne hai.ne] using h i hi'
        · have hia : i < a + 1 := by omega
          rw [cellAt_below hia htl, cellAt_below hia htl']
      rw [hhead, cells_ext htl htl' htail]
    · exact absurd (h a' ha').symm (cellAt_head_ne hw' (cellsWf_cons.2 ⟨hlt, ha, hb, htl⟩))

theorem Memory.size_eq_of_read_eq {m m' : Memory} (h : ∀ i, m.read i = m'.read i) : m.size = m'.size :=
  eq_of_forall_ge_iff fun i => by rw [← Memory.read_none, ← Memory.read_none, h]

/-- Settles O13: reads that fail alike give the size, and reads that succeed alike the cells. -/
theorem payloadsThatReadAlikeAreEqual : Obligations.PayloadsThatReadAlikeAreEqual := by
  rintro ⟨n, cs⟩ ⟨n', cs'⟩ hw hw' h
  obtain rfl : n = n' := Memory.size_eq_of_read_eq h
  have hcells : ∀ i < n, cellAt cs i = cellAt cs' i := by
    intro i hi
    have hread := h i
    rwa [Memory.read_of_lt hi, Memory.read_of_lt hi, Option.some_inj] at hread
  have hcs : cs = cs' := cells_ext hw hw' hcells
  rw [hcs]

end Sys2Proof.Machine
end

section
/-! SUPPORT. The line of a reaction, read back (spec/30_encoding.md R77 to R79), and so the step that takes it. -/

namespace Sys2Proof

/-- A well-formed reaction is the reading of its own line wherever the registers select its form. -/
theorem decodeTurn_encode {v : Sel} {i : Instr} (hw : i.wellFormed = true) (hs : i.selectedBy v = true) :
    decodeTurn v (encode i) = i := by
  cases i with
  | reset => exact decodeEvent_reset v
  | start => exact decodeEvent_start v
  | rxAcc b =>
    have hc : v.cnt.toNat < 2 := by simpa [Instr.selectedBy] using hs
    exact (decodeEvent_rx v b).trans (if_pos hc)
  | cgPause b =>
    obtain ⟨hc, hsend⟩ : ¬ v.cnt.toNat < 2 ∧ v.sending = true := by simpa [Instr.selectedBy] using hs
    exact (decodeEvent_rx v b).trans ((if_neg hc).trans (if_pos hsend))
  | cgResume b =>
    obtain ⟨hc, hsend⟩ : ¬ v.cnt.toNat < 2 ∧ v.sending = false := by simpa [Instr.selectedBy] using hs
    exact (decodeEvent_rx v b).trans ((if_neg hc).trans (if_neg (by simp [hsend])))
  | txOkHdr => exact (decodeEvent_ok v).trans (if_pos (of_decide_eq_true hs))
  | txOkPay => exact (decodeEvent_ok v).trans (if_neg (of_decide_eq_true hs))
  | txErrHdr => exact (decodeEvent_err v).trans (if_pos (of_decide_eq_true hs))
  | txErrPay => exact (decodeEvent_err v).trans (if_neg (of_decide_eq_true hs))
  | stepHdr => exact if_pos (of_decide_eq_true hs)
  | stepPay => exact if_neg (of_decide_eq_true hs)
  | reservedKind k d => exact decodeEvent_reservedKind v hw d
  | reservedData k d =>
    obtain ⟨hk, hd⟩ : kindBare k = true ∧ d ≠ 0 := by simpa [Instr.wellFormed] using hw
    exact decodeEvent_reservedData v hk hd

end Sys2Proof

namespace Sys2Proof.Machine

/-- Settles O55: a step takes the first line (`step_cons`), and a reaction's own line is read back as that reaction. -/
theorem aStepRunsTheDecodedReaction : Obligations.AStepRunsTheDecodedReaction := by
  refine fun s rest => ⟨fun t => step_cons, fun i hw hs hq => ?_⟩
  rw [step_cons hq, decodeTurn_encode hw hs]

end Sys2Proof.Machine
end

section
/-! SUPPORT. The reactions that write a byte: STEP.HDR and STEP.PAY, each with the byte its rule gives
(spec/41_streamer.md R112, spec/42_header.md R131). -/

namespace Sys2Proof.Machine

/-- What the state before and the state after a written byte `b` have to do with each other (R64, R112, R131). -/
def WritesByte (s u : State) (b : Byte) : Prop :=
  s.busy = false ∧ u.busy = true ∧
    ((s.phase = .hdr ∧ s.headerByte s.hidx = some b) ∨
      (s.phase = .run ∧ s.sending = true ∧ u.act = true ∧ u.pos = s.streamIndex ∧
        s.par.payload.read s.streamIndex = some b))

theorem writesByte_stepHdr {s : State} {b : Byte} (he : s.hdrEnabled = true) (hb : s.headerByte s.hidx = some b) :
    WritesByte s (s.writeByte b) b := by
  obtain ⟨_, _, hbusy, hp⟩ := hdrEnabled_iff.1 he
  exact ⟨hbusy, rfl, .inl ⟨hp, hb⟩⟩

/-- Of the three outcomes of STEP.PAY, one writes a byte. -/
theorem writesByte_stepPay {s : State} {b : Byte} (he : s.payEnabled = true)
    (htr : (streamOne s.takeLaunch).trace = s.trace ++ [.tx b]) : WritesByte s (streamOne s.takeLaunch) b := by
  obtain ⟨_, _, hbusy, hp, hl⟩ := payEnabled_iff.1 he
  obtain ⟨_, e⟩ | ⟨_, _, e⟩ | ⟨hlt, hs, e⟩ := stream_out s hl
  · simp [e] at htr
  · simp [e] at htr
  · have hbyte : s.payloadByte s.streamIndex = b := by simpa [e] using htr
    rw [e]
    exact ⟨hbusy, rfl, .inr ⟨hp, hs, rfl, rfl, hbyte ▸ Memory.read_of_lt hlt⟩⟩

theorem Reacts.writesByte {s u : State} {t : Turn} {b : Byte} (h : Reacts s t u)
    (htr : u.trace = s.trace ++ [.tx b]) : WritesByte s u b := by
  cases h with
  | stepHdr b' he hb =>
    obtain rfl : b' = b := by simpa using htr
    exact writesByte_stepHdr he hb
  | stepPay he => exact writesByte_stepPay he htr
  | reset | violation | start | rxAcc | cgPause | cgResume | txOkHdr | txOkPay | txErrHdr | txErrPay => simp at htr

/-- Settles O46: the wait emits nothing, and a reaction that emits TX is one of the two forms of STEP. -/
theorem bytesAreWrittenOnlyWhenFreeAndSending : Obligations.BytesAreWrittenOnlyWhenFreeAndSending := by
  intro s t b h htr
  obtain rfl | ⟨_, _, hr⟩ := step_turn h
  · simp at htr
  · exact hr.writesByte htr

end Sys2Proof.Machine
end

section
/-! SUPPORT. Runs over two buffers of the same length: each reaction of the one is a reaction of the other, and the two
traces stay alike but for the bytes that STEP.PAY reads from the buffer (spec/20_memory.md R51, spec/41_streamer.md
R112). -/

namespace Sys2Proof.Machine

/-! ### Traces -/

/-- The traces have one length and agree at every position but those of `ks`, which hold a TX event in both. -/
def TracesAgreeBut (ks : List Nat) (os os' : List OutEvent) : Prop :=
  os'.length = os.length ∧ (∀ k, k ∉ ks → os'[k]? = os[k]?) ∧
    ∀ k ∈ ks, ∃ b b', os[k]? = some (.tx b) ∧ os'[k]? = some (.tx b')

theorem tracesAgreeBut_refl (os : List OutEvent) : TracesAgreeBut [] os os := by
  simp [TracesAgreeBut]

section
variable {ks : List Nat} {os os' : List OutEvent} (h : TracesAgreeBut ks os os')
include h

/-- A position that may differ keeps its two bytes as the traces grow. -/
theorem TracesAgreeBut.tx_of_mem {k : Nat} (hk : k ∈ ks) (l l' : List OutEvent) :
    ∃ b b', (os ++ l)[k]? = some (.tx b) ∧ (os' ++ l')[k]? = some (.tx b') := by
  obtain ⟨_, _, htx⟩ := h
  obtain ⟨b, b', hb, hb'⟩ := htx k hk
  obtain ⟨hlt, _⟩ := List.getElem?_eq_some_iff.1 hb
  obtain ⟨hlt', _⟩ := List.getElem?_eq_some_iff.1 hb'
  exact ⟨b, b', (List.getElem?_append_left hlt).trans hb, (List.getElem?_append_left hlt').trans hb'⟩

/-- The same event joins both traces. -/
theorem TracesAgreeBut.append_same (o : OutEvent) : TracesAgreeBut ks (os ++ [o]) (os' ++ [o]) := by
  have hold := fun k (hk : k ∈ ks) => h.tx_of_mem hk [o] [o]
  obtain ⟨hlen, heq, _⟩ := h
  refine ⟨by simp [hlen], fun k hk => ?_, hold⟩
  simp only [List.getElem?_append, hlen, heq k hk]

/-- A byte joins each trace, at a position that then may differ. -/
theorem TracesAgreeBut.append_tx (b b' : Byte) :
    TracesAgreeBut (ks ++ [os.length]) (os ++ [.tx b]) (os' ++ [.tx b']) := by
  have hold := fun k (hk : k ∈ ks) => h.tx_of_mem hk [.tx b] [.tx b']
  obtain ⟨hlen, heq, _⟩ := h
  refine ⟨by simp [hlen], fun k hk => ?_, fun k hk => ?_⟩
  · obtain ⟨hks, hend⟩ : k ∉ ks ∧ k ≠ os.length := by simpa using hk
    obtain hlt | hgt := lt_or_gt_of_ne hend
    · rw [List.getElem?_append_left hlt, List.getElem?_append_left (hlen ▸ hlt), heq k hks]
    · have hout : os.length + 1 ≤ k := hgt
      rw [List.getElem?_eq_none (by simpa [hlen] using hout), List.getElem?_eq_none (by simpa using hout)]
  · obtain hks | rfl : k ∈ ks ∨ k = os.length := by simpa using hk
    · exact hold k hks
    · exact ⟨b, b', by simp, by simp [← hlen]⟩

end

/-! ### One reaction -/

/-- The state with other cells in a buffer of the same length, and another trace. -/
def State.withContent (cs : List Host.Cell) (os : List OutEvent) (s : State) : State :=
  { s with par := { s.par with payload := { size := s.par.payload.size, cells := cs } }, trace := os }

/-- The positions that one reaction adds to `payloadPositions`. -/
def writtenAt (s u : State) : List Nat := if writesPayload s u then [s.trace.length] else []

theorem payloadPositions_cons {s u : State} {x : Turn} (h : Reacts s x u) (xs : List Turn) :
    payloadPositions (x :: xs) s = writtenAt s u ++ payloadPositions xs u := by
  rw [payloadPositions_of_reacts h, writtenAt]
  split <;> rfl

theorem writtenAt_event {s u : State} {w : EventWord} (h : Reacts s (.event w) u) : writtenAt s u = [] := by
  simp [writtenAt, writesPayload_event h]

theorem takeLaunch_withContent (cs : List Host.Cell) (os : List OutEvent) (s : State) :
    (s.withContent cs os).takeLaunch = s.takeLaunch.withContent cs os := by
  by_cases hl : s.lreq = true <;> simp [State.takeLaunch, State.withContent, hl]

section
variable {s : State} {ks : List Nat} {os : List OutEvent} (ha : TracesAgreeBut ks s.trace os) (cs : List Host.Cell)
include ha

/-- R112: the content of the buffer chooses neither the outcome of STEP.PAY nor anything it writes but the byte. -/
theorem streamOne_withContent (hp : s.phase = .run) (hb : s.busy = false) :
    ∃ os', streamOne (s.withContent cs os) = (streamOne s).withContent cs os' ∧
      TracesAgreeBut (ks ++ writtenAt s (streamOne s)) (streamOne s).trace os' := by
  obtain ⟨hn, e⟩ | ⟨hn, hs, e⟩ | ⟨hn, hs, e⟩ := streamOne_cases s
  · refine ⟨os ++ [.done], ?_, ?_⟩
    · rw [e]; exact if_pos hn
    · simpa [e, writtenAt, writesPayload, hb] using ha.append_same .done
  · refine ⟨os, ?_, ?_⟩
    · rw [e]; exact (if_neg (Nat.not_le.2 hn)).trans (if_neg (by simp [State.withContent, hs]))
    · simpa [e, writtenAt, writesPayload, hb] using ha
  · refine ⟨os ++ [.tx ((s.withContent cs os).payloadByte s.pos)], ?_, ?_⟩
    · rw [e]; exact (if_neg (Nat.not_le.2 hn)).trans (if_pos hs)
    · simpa [e, writtenAt, writesPayload, hp, hb] using ha.append_tx _ _

/-- Every reaction happens over the other buffer too, and leaves the same registers. -/
theorem Reacts.withContent {x : Turn} {u : State} (h : Reacts s x u) :
    ∃ os', Reacts (s.withContent cs os) x (u.withContent cs os') ∧
      TracesAgreeBut (ks ++ writtenAt s u) u.trace os' := by
  cases x with
  | event w =>
    rw [writtenAt_event h, List.append_nil]
    cases h with
    | reset => exact ⟨os, .reset, ha⟩
    | violation w r hv => exact ⟨os, .violation w r hv, ha⟩
    | start hr hf hp => exact ⟨os, .start hr hf hp, ha⟩
    | rxAcc b hr hf hc => exact ⟨os, .rxAcc b hr hf hc, ha⟩
    | cgPause b hr hf hc hs => exact ⟨os, .cgPause b hr hf hc hs, ha⟩
    | cgResume b hr hf hc hs => exact ⟨os, .cgResume b hr hf hc hs, ha⟩
    | txOkHdr hr hf hb hp => exact ⟨os, .txOkHdr hr hf hb hp, ha⟩
    | txOkPay hr hf hb hp => exact ⟨os, .txOkPay hr hf hb hp, ha⟩
    | txErrHdr hr hf hb hp => exact ⟨_, .txErrHdr hr hf hb hp, ha.append_same _⟩
    | txErrPay hr hf hb hp => exact ⟨_, .txErrPay hr hf hb hp, ha.append_same _⟩
  | engine =>
    cases h with
    | stepHdr b he hb =>
      obtain ⟨_, _, _, hp⟩ := hdrEnabled_iff.1 he
      have hno : writtenAt s (s.writeByte b) = [] := by simp [writtenAt, writesPayload, hp]
      rw [hno, List.append_nil]
      exact ⟨_, .stepHdr b he hb, ha.append_same _⟩
    | stepPay he =>
      obtain ⟨_, _, hb, hp, _⟩ := payEnabled_iff.1 he
      obtain ⟨os', e, ha'⟩ := streamOne_withContent (s := s.takeLaunch) (by simpa using ha) cs
        (by simpa using hp) (by simpa using hb)
      have hat : writtenAt s.takeLaunch (streamOne s.takeLaunch) = writtenAt s (streamOne s.takeLaunch) := by
        simp [writtenAt, writesPayload]
      rw [← takeLaunch_withContent] at e
      exact ⟨os', e ▸ .stepPay he, hat ▸ ha'⟩

end

/-! ### Runs -/

/-- Every run happens over the other buffer too. -/
theorem runTurns_withContent (cs : List Host.Cell) : ∀ {ts : List Turn} {s t : State} {ks : List Nat}
    {os : List OutEvent}, TracesAgreeBut ks s.trace os → runTurns ts s = .next t →
    ∃ os', runTurns ts (s.withContent cs os) = .next (t.withContent cs os') ∧
      TracesAgreeBut (ks ++ payloadPositions ts s) t.trace os' := by
  intro ts
  induction ts with
  | nil =>
    intro s t ks os ha h
    cases h
    exact ⟨os, rfl, by simpa [payloadPositions] using ha⟩
  | cons x xs ih =>
    intro s t ks os ha h
    obtain ⟨u, hx, hxs⟩ := runTurns_cons_reacts h
    obtain ⟨os₁, hx', ha₁⟩ := hx.withContent ha cs
    obtain ⟨os₂, hxs', ha₂⟩ := ih ha₁ hxs
    refine ⟨os₂, (runTurns_of_reacts hx').trans hxs', ?_⟩
    rwa [payloadPositions_cons hx, ← List.append_assoc]

/-- Settles O54: the two runs go side by side from equal traces. -/
theorem payloadContentReachesOnlyTxBytes : Obligations.PayloadContentReachesOnlyTxBytes := by
  intro ts s t cs h
  obtain ⟨os', hrun, hlen, heq, htx⟩ := runTurns_withContent cs (tracesAgreeBut_refl s.trace) h
  exact ⟨_, hrun, rfl, rfl, hlen, heq, htx⟩

end Sys2Proof.Machine
end

section
/-! SUPPORT. The readings of a line: a reaction is read from a line exactly when it encodes to that line, is well-formed
and is selected by the registers (spec/30_encoding.md R77 to R79). What a word decodes to is then a question about the
words the encoder gives. -/

namespace Sys2Proof

/-- The reaction belongs to the line and to a row of the table, and the registers select its form (R77, R78). -/
def IsReading (v : Sel) (t : Turn) (i : Instr) : Prop :=
  encode i = t ∧ i.wellFormed = true ∧ i.selectedBy v = true

/-- Settles O1: reaction by reaction, `decodeTurn_encode`. -/
theorem decodeOfEncodeIsTheReaction : Obligations.DecodeOfEncodeIsTheReaction :=
  fun _ _ hw hs => decodeTurn_encode hw hs

theorem wellFormed_reservedData {k : BitVec 3} {d : Byte} :
    (Instr.reservedData k d).wellFormed = true ↔ kindBare k = true ∧ d ≠ 0 := by
  simp [Instr.wellFormed]

theorem isReading_decodeRx (v : Sel) (b : Byte) : IsReading v (.event (mkEvent 2 b)) (decodeRx v b) := by
  rw [decodeRx]
  split_ifs with hc hs
  · exact ⟨rfl, rfl, by simp [Instr.selectedBy, hc]⟩
  · exact ⟨rfl, rfl, by simp [Instr.selectedBy, hc, hs]⟩
  · exact ⟨rfl, rfl, by simp [Instr.selectedBy, hc, hs]⟩

/-- Two forms of one line that the phase tells apart: HDR selects the one, every other phase the other. -/
theorem isReading_by_phase {v : Sel} {t : Turn} {i j : Instr} (hi : v.phase = .hdr → IsReading v t i)
    (hj : v.phase ≠ .hdr → IsReading v t j) : IsReading v t (if v.phase = .hdr then i else j) := by
  split_ifs with hp
  · exact hi hp
  · exact hj hp

theorem isReading_decodeEvent (v : Sel) (w : EventWord) : IsReading v (.event w) (decodeEvent v w) := by
  obtain rfl | rfl | ⟨b, rfl⟩ | rfl | rfl | ⟨k, d, rfl, hk⟩ | ⟨k, d, rfl, hk, hd⟩ := eventWord_cases w
  · rw [decodeEvent_reset]; exact ⟨rfl, rfl, rfl⟩
  · rw [decodeEvent_start]; exact ⟨rfl, rfl, rfl⟩
  · rw [decodeEvent_rx]; exact isReading_decodeRx v b
  · rw [decodeEvent_ok]
    exact isReading_by_phase (fun hp => ⟨rfl, rfl, decide_eq_true hp⟩) (fun hp => ⟨rfl, rfl, decide_eq_true hp⟩)
  · rw [decodeEvent_err]
    exact isReading_by_phase (fun hp => ⟨rfl, rfl, decide_eq_true hp⟩) (fun hp => ⟨rfl, rfl, decide_eq_true hp⟩)
  · rw [decodeEvent_reservedKind v hk]; exact ⟨rfl, hk, rfl⟩
  · rw [decodeEvent_reservedData v hk hd]; exact ⟨rfl, wellFormed_reservedData.2 ⟨hk, hd⟩, rfl⟩

theorem isReading_decodeTurn (v : Sel) (t : Turn) : IsReading v t (decodeTurn v t) := by
  cases t with
  | event w => exact isReading_decodeEvent v w
  | engine =>
    exact isReading_by_phase (fun hp => ⟨rfl, rfl, decide_eq_true hp⟩) (fun hp => ⟨rfl, rfl, decide_eq_true hp⟩)

/-- Settles O2: row by row, the decoder's answer is a reading of its line. -/
theorem encodeOfDecodeIsTheLine : Obligations.EncodeOfDecodeIsTheLine := isReading_decodeTurn

/-- Every line has one reading, the decoder's. -/
theorem decodeEvent_eq_iff {v : Sel} {w : EventWord} {i : Instr} :
    decodeEvent v w = i ↔ IsReading v (.event w) i := by
  constructor
  · rintro rfl
    exact isReading_decodeEvent v w
  · rintro ⟨he, hw, hs⟩
    have h := decodeTurn_encode hw hs
    rwa [he] at h

/-- Settles O3: each word is the table's word of the row (R77), and the row's qualifier holds. -/
theorem decodesTheSpecsWords : Obligations.DecodesTheSpecsWords := by
  refine ⟨fun v => ?_, fun v => ?_, fun s p => ?_, fun s p => ?_, fun p => ?_, fun p => ?_, fun c s => ⟨?_, ?_⟩,
    fun c s => ⟨?_, ?_⟩, fun v => ⟨?_, ?_⟩, fun v => ⟨?_, ?_⟩⟩
  all_goals exact decodeEvent_eq_iff.2 ⟨rfl, rfl, rfl⟩

/-! ### The reserved words -/

theorem kindReserved_iff {k : BitVec 3} : kindReserved k = true ↔ 5 ≤ k.toNat := decide_eq_true_iff

theorem kindBare_iff {k : BitVec 3} : kindBare k = true ↔ k.toNat < 5 ∧ k.toNat ≠ 2 := by
  revert k; decide

theorem exists_decodeEvent_reservedKind {v : Sel} {w : EventWord} :
    (∃ k d, decodeEvent v w = .reservedKind k d) ↔ kindReserved (eventKind w) = true := by
  constructor
  · rintro ⟨k, d, h⟩
    obtain ⟨he, hw, _⟩ := decodeEvent_eq_iff.1 h
    cases he
    rwa [eventKind_mkEvent]
  · intro hk
    exact ⟨_, _, decodeEvent_eq_iff.2 ⟨congrArg _ (mkEvent_fields w), hk, rfl⟩⟩

theorem exists_decodeEvent_reservedData {v : Sel} {w : EventWord} :
    (∃ k d, decodeEvent v w = .reservedData k d) ↔ kindBare (eventKind w) = true ∧ eventData w ≠ 0 := by
  constructor
  · rintro ⟨k, d, h⟩
    obtain ⟨he, hw, _⟩ := decodeEvent_eq_iff.1 h
    cases he
    rw [eventKind_mkEvent, eventData_mkEvent]
    exact wellFormed_reservedData.1 hw
  · intro h
    exact ⟨_, _, decodeEvent_eq_iff.2 ⟨congrArg _ (mkEvent_fields w), wellFormed_reservedData.2 h, rfl⟩⟩

/-- KIND and DATA of R77 as the high and the low part of the word's number. -/
theorem eventWord_toNat (w : EventWord) : w.toNat = (eventKind w).toNat * 256 + (eventData w).toNat := by
  rw [← mkEvent_toNat, mkEvent_fields]

/-- Settles O4: the two reserved rows, told by KIND and DATA, and these by the word's number. -/
theorem reservedWordsAreExactlyThese : Obligations.ReservedWordsAreExactlyThese := by
  intro v w
  have hw := eventWord_toNat w
  have hd : (eventData w).toNat < 256 := (eventData w).isLt
  have hd0 : eventData w ≠ 0 ↔ (eventData w).toNat ≠ 0 := BitVec.toNat_ne_iff_ne.symm
  rw [exists_decodeEvent_reservedKind, exists_decodeEvent_reservedData, kindReserved_iff, kindBare_iff, hd0]
  omega

end Sys2Proof
end

section
/-! SUPPORT. The control group's decode word (spec/30_encoding.md R74) and the form of the byte that completes a group
(spec/40_decoder.md R100). -/

namespace Sys2Proof.Machine

theorem groupWord_toNat (S : Bool) (V : Value) : (groupWord S V).toNat = S.toNat * 2 ^ 24 + V.toNat := by
  rw [groupWord, toNat_append_eq_add, BitVec.toNat_ofBool]

theorem groupWord_bit24 (S : Bool) (V : Value) : (groupWord S V).getLsbD 24 = S := by
  rw [groupWord, BitVec.getLsbD_append]
  simp

theorem groupWord_value (S : Bool) (V : Value) : (groupWord S V).extractLsb' 0 24 = V := by
  apply BitVec.eq_of_toNat_eq
  have hV : V.toNat < 2 ^ 24 := V.isLt
  rw [BitVec.extractLsb'_toNat, Nat.shiftRight_zero, groupWord_toNat]
  omega

/-- Bit S alone chooses the meaning, for every control value (R74). -/
theorem decodeGroup_groupWord (S : Bool) (V : Value) :
    decodeGroup (groupWord S V) = if S then .pause V else .resume V := by
  rw [decodeGroup, groupWord_bit24, groupWord_value]

/-- R100's else branches: from `cnt` = 2 on, a byte completes the group, and `sending` chooses the form. -/
theorem decodeRx_complete {v : Sel} (hc : 2 ≤ v.cnt.toNat) (b : Byte) :
    decodeRx v b = if v.sending then .cgPause b else .cgResume b := if_neg (Nat.not_lt.2 hc)

/-- Settles O5: `sending` chooses the form of the completing byte as S chooses the meaning of the decode word. -/
theorem groupMeaningDependsOnSendingAlone : Obligations.GroupMeaningDependsOnSendingAlone := by
  refine ⟨groupWord_toNat, decodeGroup_groupWord, fun v b V hc => ?_⟩
  rw [rxWord_eq, decodeEvent_rx, decodeRx_complete hc, decodeGroup_groupWord]
  cases v.sending with
  | true => simp
  | false => simp

end Sys2Proof.Machine
end

section
/-! SUPPORT. The HostFault of an offered event (spec/60_exceptions.md R155, R157), and where a step stops: every legal
event of an unfaulted state and every enabled STEP is taken (spec/10_state.md R31, spec/30_encoding.md R82,
spec/41_streamer.md R111). -/

namespace Sys2Proof.Machine

/-- After the first RESET a row's violation is recorded, and nothing else changes (R157). -/
theorem hostEvent_of_violation {s t : State} {r : HostFault} {sel : Bool} (w : EventWord) (hr : s.wasReset = true) :
    hostEvent w (some r) sel s t = .next { s with fault := s.fault.or (some r) } :=
  if_pos hr

/-- Settles O16: the rows' own violation is ReservedEvent, in every state (R79). -/
theorem reservedEventsAreHostFaults : Obligations.ReservedEventsAreHostFaults := by
  intro k d s hr
  have h := hostEvent_of_violation (t := s) (r := .reservedEvent (mkEvent k d)) (sel := true) (mkEvent k d) hr
  exact ⟨h, h⟩

/-- An event that breaks no duty leaves `fault` as it was. -/
theorem Reacts.fault_of_legal {s u : State} {w : EventWord} (h : Reacts s (.event w) u)
    (hv : violationOf s w = none) : u.fault = s.fault := by
  cases h with
  | violation _ r hr => cases hv.symm.trans hr
  | reset | start | rxAcc | cgPause | cgResume | txOkHdr | txOkPay | txErrHdr | txErrPay => rfl

/-- Settles O14: the violation is itself a reaction, and no other reaction to an event writes `fault`. -/
theorem illegalEventsRaiseTheirHostFault : Obligations.IllegalEventsRaiseTheirHostFault := by
  intro s w rest hq
  rw [step_cons hq]
  refine ⟨fun r hv => ?_, fun hv t h => ?_⟩
  · exact exec_of_reacts (s := { s with schedule := rest }) (.violation w r hv)
  · have hr : Reacts { s with schedule := rest } (.event w) t := reacts_of_exec h
    exact hr.fault_of_legal hv

/-- R153: without a fault every event is taken, whatever its word. -/
theorem StateInv.event_reacts {s : State} (hi : StateInv s) (hf : s.fault = none) (w : EventWord) :
    ∃ u, Reacts s (.event w) u := by
  cases hv : violationOf s w with
  | some r => exact ⟨_, .violation w r hv⟩
  | none =>
    have hr := hi.taken
    have hnot : ¬ s.wasReset = false := by simp [hr]
    obtain rfl | rfl | ⟨b, rfl⟩ | rfl | rfl | ⟨k, d, rfl, hk⟩ | ⟨k, d, rfl, hk, hd⟩ := eventWord_cases w
    · exact ⟨_, .reset⟩
    · rw [violationOf_start, if_neg hnot] at hv
      exact ⟨_, .start hr hf (by by_contra hp; simp [notIdle, hp] at hv)⟩
    · rw [← lineRx_eq]
      exact ⟨_, rxState_reacts b ⟨hr, hf⟩⟩
    · rw [violationOf_ok, if_neg hnot] at hv
      have hb := noWrite_none.1 hv
      obtain hp | hp := hi.busy_phase hb
      · exact ⟨_, .txOkHdr hr hf hb hp⟩
      · exact ⟨_, .txOkPay hr hf hb hp⟩
    · rw [violationOf_err, if_neg hnot] at hv
      have hb := noWrite_none.1 hv
      obtain hp | hp := hi.busy_phase hb
      · exact ⟨_, .txErrHdr hr hf hb hp⟩
      · exact ⟨_, .txErrPay hr hf hb hp⟩
    · rw [violationOf_reserved s (reservedWord_kind hk d), if_neg hnot] at hv; cases hv
    · rw [violationOf_reserved s (reservedWord_data hk hd), if_neg hnot] at hv; cases hv

/-- R111: an enabled STEP happens; in HDR the header index has a byte (I3). -/
theorem StateInv.engine_reacts {s : State} (hi : StateInv s) (he : s.stepEnabled = true) :
    ∃ u, Reacts s .engine u := by
  obtain hh | hp := stepEnabled_iff.1 he
  · obtain ⟨_, _, _, hp⟩ := hdrEnabled_iff.1 hh
    obtain ⟨b, hb⟩ := headerByte_some (hi.hdr_hidx hp)
    exact ⟨_, .stepHdr b hh hb⟩
  · exact ⟨_, .stepPay hp⟩

/-- What a turn can answer: a next state, the refusal of a STEP that is not enabled, or the stop on a recorded
fault. -/
def TurnAnswer (s : State) (t : Turn) (r : Result) : Prop :=
  (∃ u, r = .next u) ∨
  (t = .engine ∧ s.stepEnabled = false ∧ r = .refused .stepNotEnabled) ∨
  (∃ f, s.fault = some f ∧ r = .fault (.faulted f))

theorem StateInv.turnAnswer {s : State} (hi : StateInv s) (t : Turn) :
    TurnAnswer s t (exec (decodeTurn s.sel t) s) := by
  cases t with
  | engine =>
    cases he : s.stepEnabled with
    | true =>
      obtain ⟨u, hu⟩ := hi.engine_reacts he
      exact .inl ⟨u, exec_of_reacts hu⟩
    | false => exact .inr (.inl ⟨rfl, he, engine_disabled he⟩)
  | event w =>
    cases hf : s.fault with
    | none =>
      obtain ⟨u, hu⟩ := hi.event_reacts hf w
      exact .inl ⟨u, exec_of_reacts hu⟩
    | some f =>
      cases hv : violationOf s w with
      | some r => exact .inl ⟨_, exec_of_reacts (.violation w r hv)⟩
      | none =>
        by_cases hw : w = 0x000
        · exact .inl ⟨_, by rw [hw]; exact exec_of_reacts .reset⟩
        · exact .inr (.inr ⟨f, hf, exec_legal_of_fault hi.taken hf hw hv⟩)

/-- A step waits, or answers as the turn it takes does; with nothing offered it takes only an enabled STEP. -/
theorem StateInv.step_turnAnswer {s : State} (hi : StateInv s) :
    (∃ u, step s = .next u) ∨ ∃ t, s.schedule.head? = some t ∧ TurnAnswer s t (step s) := by
  cases hq : s.schedule with
  | nil =>
    left
    rw [step_nil hq]
    cases he : s.stepEnabled with
    | true =>
      obtain ⟨u, hu⟩ := hi.engine_reacts he
      exact ⟨u, exec_of_reacts hu⟩
    | false => exact ⟨s, rfl⟩
  | cons t rest =>
    right
    rw [step_cons hq]
    exact ⟨t, rfl, (hi.withSchedule rest).turnAnswer t⟩

/-- Settles O21: of a turn's answers, one is a refusal and one a fault. -/
theorem theOnlyStops : Obligations.TheOnlyStops := by
  intro s hi
  obtain ⟨u, h⟩ | ⟨t, hq, ⟨u, h⟩ | ⟨rfl, he, h⟩ | ⟨r, hf, h⟩⟩ := hi.step_turnAnswer
  · simp [h]
  · simp [h]
  · simp [h, hq, he]
  · simp [h, hf]

end Sys2Proof.Machine
end

section
/-! SUPPORT. The three bytes of a control group, taken from `cnt` = 0 (spec/30_encoding.md R73, R83; spec/40_decoder.md
R101 to R103). -/

namespace Sys2Proof.Machine

/-- R73: three bytes shift everything out that the accumulator held. -/
theorem offsetOf_three_bytes (a : Value) (b0 b1 b2 : Byte) :
    offsetOf (shiftIn (shiftIn (shiftIn a b0) b1) b2) = b0.toNat * 65536 + b1.toNat * 256 + b2.toNat := by
  have h0 : b0.toNat < 256 := b0.isLt
  have h1 : b1.toNat < 256 := b1.isLt
  have h2 : b2.toNat < 256 := b2.isLt
  rw [offsetOf_shiftIn, shiftIn_toNat, shiftIn_toNat]
  omega

/-- `resume R` (R83) spells R. -/
theorem resumeGroup_value (r : Value) :
    (r.extractLsb' 16 8).toNat * 65536 + (r.extractLsb' 8 8).toNat * 256 + (r.extractLsb' 0 8).toNat = r.toNat := by
  have hr : r.toNat < 2 ^ 24 := r.isLt
  simp only [BitVec.extractLsb'_toNat, Nat.shiftRight_eq_div_pow]
  omega

/-- The state a whole group leaves, taken from `cnt` = 0 (R101 to R103). -/
def groupState (s : State) (b0 b1 b2 : Byte) : State :=
  if s.sending = true then { s with sending := false, acc := 0, cnt := 0 }
  else { s with
    sending := true, lreq := true, loff := b0.toNat * 65536 + b1.toNat * 256 + b2.toNat, acc := 0, cnt := 0 }

theorem rxState_of_lt {s : State} (hc : s.cnt.toNat < 2) (b : Byte) :
    rxState s b = { s with acc := shiftIn s.acc b, cnt := s.cnt + 1 } := if_pos hc

/-- Two bytes are collected, and the third completes the group. -/
theorem rxState_three_bytes {s : State} (hc : s.cnt = 0) (b0 b1 b2 : Byte) :
    rxState (rxState (rxState s b0) b1) b2 = groupState s b0 b1 b2 := by
  have e0 : rxState s b0 = { s with acc := shiftIn s.acc b0, cnt := 1 } := by
    rw [rxState_of_lt (by simp [hc]), hc]; rfl
  have e1 : rxState (rxState s b0) b1 = { s with acc := shiftIn (shiftIn s.acc b0) b1, cnt := 2 } := by
    rw [e0, rxState_of_lt (by simp)]; rfl
  rw [e1, rxState, if_neg (by simp), groupState]
  split_ifs
  · rfl
  · rw [offsetOf_three_bytes]; rfl

theorem rxState_accepting {s : State} (ha : Accepting s) (b : Byte) : Accepting (rxState s b) := by
  rw [rxState]
  split_ifs <;> exact ha

theorem runTurns_group {s : State} (ha : Accepting s) (hc : s.cnt = 0) (b0 b1 b2 : Byte) :
    runTurns (group b0 b1 b2) s = .next { groupState s b0 b1 b2 with schedule := [] } := by
  have ha0 := rxState_accepting ha b0
  have ha1 := rxState_accepting ha0 b1
  rw [group, runTurns_of_reacts (rxState_reacts b0 ha), runTurns_of_reacts (rxState_reacts b1 ha0),
    runTurns_of_reacts (rxState_reacts b2 ha1), runTurns_nil, rxState_three_bytes hc]

/-- Settles O27: the run of a group is `groupState`, whose launch offset is the number the bytes spell. -/
theorem threeBytesMakeTheControlValue : Obligations.ThreeBytesMakeTheControlValue := by
  intro s ha hc
  refine ⟨fun b0 b1 b2 hs => ?_, fun r hs => ?_, fun b0 b1 b2 hs => ?_⟩
  · rw [runTurns_group ha hc, groupState, if_neg (by simp [hs])]
  · rw [resumeGroup, runTurns_group ha hc, groupState, if_neg (by simp [hs]), resumeGroup_value]
  · rw [runTurns_group ha hc, groupState, if_pos hs]

end Sys2Proof.Machine
end

section
/-! SUPPORT. One RX event by itself (spec/40_decoder.md R100 to R103): its form, the state it leaves, what it keeps and
what it does not read, and so how it stands to a TX response (R107). -/

namespace Sys2Proof.Machine

/-! ### The forms of RX -/

/-- R100's first branch: below `cnt` = 2 a byte is collected. -/
theorem decodeRx_collect {v : Sel} (hc : v.cnt.toNat < 2) (b : Byte) : decodeRx v b = .rxAcc b := if_pos hc

/-- R101: below 2^16 the accumulator loses nothing to `mod 2^24`. -/
theorem shiftIn_toNat_of_lt {a : Value} (b : Byte) (ha : a.toNat < 65536) :
    (shiftIn a b).toNat = a.toNat * 256 + b.toNat := by
  have hb : b.toNat < 256 := b.isLt
  rw [shiftIn_toNat]
  omega

/-- Settles O24: the accumulator takes the byte as its lowest 8 bits, and nothing is shifted out below 2^16. -/
theorem rxAccShiftsTheByteIn : Obligations.RxAccShiftsTheByteIn := by
  intro s b ha hc
  obtain ⟨hr, hf⟩ := ha
  have hfit := shiftIn_toNat_of_lt (a := s.acc) b
  refine ⟨?_, shiftIn s.acc b, shiftIn_toNat s.acc b, ?_, cnt_succ_toNat hc, hfit, fun h0 => ?_⟩
  · rw [rxWord_eq, decodeEvent_rx, decodeRx_collect hc]
  · exact hostEvent_ok hr hf rfl (decide_eq_true hc)
  · simpa [h0] using hfit

/-- Settles O25: the third byte while sending takes the form CG.PAUSE. -/
theorem pauseGroupClearsSending : Obligations.PauseGroupClearsSending := by
  intro s b ⟨hr, hf⟩ hc hs
  have hc' : ¬ s.cnt.toNat < 2 := Nat.not_lt.2 hc
  refine ⟨?_, ?_⟩
  · rw [rxWord_eq, decodeEvent_rx, decodeRx_complete hc, State.sel_sending, if_pos hs]
  · exact hostEvent_ok hr hf rfl (by simp only [Instr.selectedBy, State.sel_cnt, State.sel_sending, hc', hs]; rfl)

/-- Settles O26: the third byte while paused takes the form CG.RESUME, whose value is `shiftIn`. -/
theorem resumeGroupRequestsALaunch : Obligations.ResumeGroupRequestsALaunch := by
  intro s b ⟨hr, hf⟩ hc hs
  have hc' : ¬ s.cnt.toNat < 2 := Nat.not_lt.2 hc
  refine ⟨?_, ?_⟩
  · rw [rxWord_eq, decodeEvent_rx, decodeRx_complete hc, State.sel_sending, if_neg (by simp [hs])]
  · rw [← offsetOf_shiftIn]
    exact hostEvent_ok hr hf rfl (by simp only [Instr.selectedBy, State.sel_cnt, State.sel_sending, hc', hs]; rfl)

/-! ### Forms that are not selected -/

/-- A legal form of an event that the registers do not select is refused. -/
theorem hostEvent_notSelected {w : EventWord} {viol : Option HostFault} {sel : Bool} {s t : State} (ha : Accepting s)
    (hv : viol = none) (hs : sel = false) : hostEvent w viol sel s t = .refused .formNotSelected :=
  hostEvent_refused.2 ⟨ha.1, hv, ha.2, hs, rfl⟩

theorem engineStep_disabled {enabled : Bool} (h : enabled = false) (r : Result) :
    engineStep enabled r = .refused .stepNotEnabled := by
  rw [h]; rfl

/-- R131 names four header bytes. -/
theorem headerByte_none {s : State} {h : BitVec 3} (h4 : 4 ≤ h.toNat) : s.headerByte h = none :=
  List.getElem?_eq_none h4

theorem execStepHdr_noHeaderByte {s : State} (he : s.hdrEnabled = true) (h4 : 4 ≤ s.hidx.toNat) :
    exec .stepHdr s = .fault (.noHeaderByte s.hidx) := by
  rw [exec, execStepHdr, headerByte_none h4, he]
  rfl

/-- Settles O22: each form's qualifier is false, or STEP is disabled, or no header byte is named. -/
theorem formsThatAreNotSelectedStop : Obligations.FormsThatAreNotSelectedStop := by
  refine ⟨fun s b ha => ⟨fun hc => ?_, fun h => ?_, fun h => ?_⟩, fun s ha hb => ⟨fun hp => ?_, fun hp => ?_⟩,
    fun s => ⟨fun he => engineStep_disabled he _, fun he => engineStep_disabled he _, execStepHdr_noHeaderByte⟩⟩
  · exact hostEvent_notSelected ha rfl (decide_eq_false (Nat.not_lt.2 hc))
  · exact hostEvent_notSelected ha rfl (by obtain hc | hs := h <;> simp [Instr.selectedBy, *])
  · exact hostEvent_notSelected ha rfl (by obtain hc | hs := h <;> simp [Instr.selectedBy, *])
  · have hno := decide_eq_false hp
    exact ⟨hostEvent_notSelected ha (noWrite_none.2 hb) hno, hostEvent_notSelected ha (noWrite_none.2 hb) hno⟩
  · have hno := decide_eq_false hp
    exact ⟨hostEvent_notSelected ha (noWrite_none.2 hb) hno, hostEvent_notSelected ha (noWrite_none.2 hb) hno⟩

/-! ### What an RX event keeps and does not read -/

/-- The state `s` with the registers that an RX event writes (R101 to R103) taken from `d`. -/
def State.withDecoder (s d : State) : State :=
  { s with sending := d.sending, cnt := d.cnt, acc := d.acc, lreq := d.lreq, loff := d.loff }

@[simp] theorem State.withDecoder_cnt (s d : State) : (s.withDecoder d).cnt = d.cnt := rfl
@[simp] theorem State.withDecoder_sending (s d : State) : (s.withDecoder d).sending = d.sending := rfl

/-- R100: an RX event does the same to these registers whatever the others hold, and leaves the others. -/
theorem rxState_withDecoder (s d : State) (b : Byte) :
    rxState (s.withDecoder d) b = s.withDecoder (rxState d b) := by
  rw [rxState, rxState, State.withDecoder_cnt, State.withDecoder_sending]
  split_ifs <;> rfl

theorem rxState_frame (s : State) (b : Byte) : rxState s b = s.withDecoder (rxState s b) :=
  rxState_withDecoder s s b

/-- An accepted RX event, as a step. -/
theorem step_rx {s : State} {b : Byte} {rest : List Turn} (hq : s.schedule = lineRx b :: rest) (ha : Accepting s) :
    step s = .next (rxState { s with schedule := rest } b) := by
  rw [step_cons hq]
  exact exec_of_reacts (s := { s with schedule := rest }) (rxState_reacts b ha)

/-- Settles O23: the step is `rxState`, which keeps and does not read the engine's registers. -/
theorem rxIsEnabledInEveryPhase : Obligations.RxIsEnabledInEveryPhase := by
  intro s b rest hq
  refine ⟨fun ha => ⟨?_, State.withDecoder { s with schedule := rest } (rxState s b), ?_, rfl, rfl, rfl, rfl,
    fun p h y a q => ?_⟩, fun hr hf => ?_⟩
  · rw [step_cons hq, lineRx_eq, decodeTurn, decodeEvent_rx]
    rfl
  · rw [step_rx hq ha]
    exact congrArg _ (rxState_withDecoder { s with schedule := rest } s b)
  · rw [step_rx (s := { s with phase := p, hidx := h, busy := y, act := a, pos := q }) hq ha]
    exact congrArg _ (rxState_withDecoder
      { s with phase := p, hidx := h, busy := y, act := a, pos := q, schedule := rest } s b)
  · have hviol := violationOf_rx s b
    rw [if_pos hr] at hviol
    rw [lineRx_eq] at hq
    obtain ⟨hstep, _⟩ := illegalEventsRaiseTheirHostFault s _ rest hq
    rw [hstep _ hviol, hf, rxWord_eq]
    rfl

/-! ### RX and a TX response -/

/-- R114, R115, R132, R133: the answer to the byte in flight neither reads nor writes the registers of an RX event. -/
theorem response_reacts {s : State} {resp : Turn} (ha : Accepting s) (hb : s.busy = true)
    (hp : s.phase = .hdr ∨ s.phase = .run) (hresp : resp = lineOk ∨ resp = lineErr) :
    ∃ u, Reacts s resp u ∧ Accepting u ∧ u.withDecoder s = u ∧
      ∀ d, Reacts (s.withDecoder d) resp (u.withDecoder d) := by
  obtain ⟨hr, hf⟩ := ha
  rw [lineOk_eq, lineErr_eq] at hresp
  obtain rfl | rfl := hresp
  · obtain hp | hp := hp
    · exact ⟨_, .txOkHdr hr hf hb hp, ⟨hr, hf⟩, rfl, fun _ => .txOkHdr hr hf hb hp⟩
    · exact ⟨_, .txOkPay hr hf hb hp, ⟨hr, hf⟩, rfl, fun _ => .txOkPay hr hf hb hp⟩
  · obtain hp | hp := hp
    · exact ⟨_, .txErrHdr hr hf hb hp, ⟨hr, hf⟩, rfl, fun _ => .txErrHdr hr hf hb hp⟩
    · exact ⟨_, .txErrPay hr hf hb hp, ⟨hr, hf⟩, rfl, fun _ => .txErrPay hr hf hb hp⟩

/-- Settles O31: the response happens before the RX event as after it, and the RX event before the response as after
it. -/
theorem rxAndResponseCommute : Obligations.RxAndResponseCommute := by
  intro s b resp ha hb hp hresp
  obtain ⟨u, hfirst, hau, hus, hreact⟩ := response_reacts ha hb hp hresp
  have hcomm : u.withDecoder (rxState s b) = rxState u b := by rw [← rxState_withDecoder, hus]
  have hlast : Reacts (rxState s b) resp (rxState u b) := by
    rw [rxState_frame s, ← hcomm]
    exact hreact _
  refine ⟨{ rxState u b with schedule := [] }, ?_, ?_⟩
  · rw [runTurns_of_reacts (rxState_reacts b ha), runTurns_of_reacts hlast, runTurns_nil]
  · rw [runTurns_of_reacts hfirst, runTurns_of_reacts (rxState_reacts b hau), runTurns_nil]

end Sys2Proof.Machine
end

section
/-! SUPPORT. The decoder's registers as a function of the inbound bytes since the last RESET (spec/40_decoder.md R104,
R108; spec/10_state.md R20 to R23): every reaction moves both sides alike. -/

namespace Sys2Proof.Machine

/-! ### The bytes since RESET, one turn at a time -/

section
variable (bs : List Byte)

theorem bytesAfterReset_cons (t : Turn) (ts : List Turn) :
    bytesAfterReset bs (t :: ts) = bytesAfterReset (bytesAfterReset bs [t]) ts := by
  cases t with
  | engine => rfl
  | event w => simp only [bytesAfterReset]; split_ifs <;> rfl

theorem bytesAfterReset_engine : bytesAfterReset bs [.engine] = bs := rfl

theorem bytesAfterReset_reset : bytesAfterReset bs [.event (mkEvent 0 0)] = [] := if_pos (by decide)

theorem bytesAfterReset_rx (b : Byte) : bytesAfterReset bs [.event (mkEvent 2 b)] = bs ++ [b] := by
  have hw : mkEvent 2 b ≠ 0x000 := fun h => absurd (congrArg eventKind h) (by rw [eventKind_mkEvent]; decide)
  rw [bytesAfterReset, if_neg hw, eventKind_mkEvent, if_pos rfl, eventData_mkEvent]
  rfl

/-- Neither RESET nor RX: the bytes stay. -/
theorem bytesAfterReset_other {w : EventWord} (h0 : w ≠ 0x000) (h2 : eventKind w ≠ 2) :
    bytesAfterReset bs [.event w] = bs := (if_neg h0).trans (if_neg h2)

/-- After RESET neither RESET nor RX breaks a host duty (R155). -/
theorem bytesAfterReset_violation {s : State} {w : EventWord} {r : HostFault} (hr : s.wasReset = true)
    (hv : violationOf s w = some r) : bytesAfterReset bs [.event w] = bs := by
  refine bytesAfterReset_other bs ?_ fun h2 => ?_
  · rintro rfl
    exact absurd hv (by simp [violationOf])
  · rw [← mkEvent_fields w, h2, violationOf_rx, hr] at hv
    cases hv

end

/-! ### The incomplete group -/

theorem bigEndian_lt (bs : List Byte) : bigEndian bs < 256 ^ bs.length := by
  induction bs using List.reverseRecOn with
  | nil => exact Nat.one_pos
  | append_singleton bs b ih =>
    have hb : b.toNat < 256 := b.isLt
    rw [bigEndian_snoc, List.length_append, List.length_singleton, pow_succ]
    omega

/-- The bytes of the incomplete group (R22, R23). -/
def openGroup (bs : List Byte) : List Byte := bs.drop (bs.length / 3 * 3)

theorem openGroup_length (bs : List Byte) : (openGroup bs).length = bs.length % 3 := by
  rw [openGroup, List.length_drop]
  omega

/-- A byte that leaves its group incomplete joins it. -/
theorem openGroup_snoc {bs : List Byte} (h : bs.length % 3 < 2) (b : Byte) :
    openGroup (bs ++ [b]) = openGroup bs ++ [b] := by
  have hdiv : (bs ++ [b]).length / 3 = bs.length / 3 := by rw [List.length_append, List.length_singleton]; omega
  rw [openGroup, hdiv, openGroup, List.drop_append_of_le_length (Nat.div_mul_le_self _ _)]

/-! ### The decoder's registers -/

/-- RESET has been taken and the decoder's registers stand where the bytes `bs` since then put them (R104, R108). -/
structure Decoded (bs : List Byte) (s : State) : Prop where
  taken : s.wasReset = true
  cnt : s.cnt.toNat = bs.length % 3
  acc : s.acc.toNat = bigEndian (openGroup bs)
  sending : s.sending = decide (bs.length / 3 % 2 = 0)

theorem Decoded.clearRegisters (s : State) : Decoded [] s.clearRegisters :=
  ⟨rfl, rfl, rfl, rfl⟩

section
variable {bs : List Byte} {s : State} (hd : Decoded bs s)
include hd

/-- The first two bytes of a group are collected. -/
theorem Decoded.collect (hc : s.cnt.toNat < 2) (b : Byte) :
    Decoded (bs ++ [b]) { s with acc := shiftIn s.acc b, cnt := s.cnt + 1 } := by
  obtain ⟨hr, hcnt, hacc, hsend⟩ := hd
  have hlen : (bs ++ [b]).length = bs.length + 1 := by simp
  have hmod : bs.length % 3 < 2 := hcnt ▸ hc
  have hdiv : (bs.length + 1) / 3 = bs.length / 3 := by omega
  have hfit : s.acc.toNat < 65536 := by
    have hlt := bigEndian_lt (openGroup bs)
    rw [openGroup_length, ← hacc] at hlt
    exact hlt.trans_le (Nat.pow_le_pow_right (n := 256) (by decide) hmod.le)
  refine ⟨hr, ?_, ?_, ?_⟩
  · rw [cnt_succ_toNat hc, hlen]; omega
  · rw [shiftIn_toNat_of_lt b hfit, openGroup_snoc hmod, bigEndian_snoc, hacc]
  · rw [hlen, hdiv]; exact hsend

/-- The third byte completes the group, which toggles `sending` and leaves the next group empty. -/
theorem Decoded.complete (hc : ¬ s.cnt.toNat < 2) (b : Byte) {u : State} (hr : u.wasReset = true)
    (hs : u.sending = !s.sending) : Decoded (bs ++ [b]) u.closeGroup := by
  obtain ⟨_, hcnt, _, hsend⟩ := hd
  have hlen : (bs ++ [b]).length = bs.length + 1 := by simp
  have hmod : (bs.length + 1) % 3 = 0 := by omega
  have hdiv : (bs.length + 1) / 3 = bs.length / 3 + 1 := by omega
  have hopen : openGroup (bs ++ [b]) = [] := by
    rw [← List.length_eq_zero_iff, openGroup_length, hlen, hmod]
  refine ⟨hr, ?_, ?_, ?_⟩
  · rw [hlen, hmod]; rfl
  · rw [hopen]; rfl
  · rw [hlen, hdiv, State.closeGroup_sending, hs, hsend, ← decide_not, decide_eq_decide]
    omega

/-- Every reaction keeps the decoder's registers in step with the bytes. -/
theorem Decoded.react {t : Turn} {u : State} (h : Reacts s t u) : Decoded (bytesAfterReset bs [t]) u := by
  have hr := hd.taken
  cases h with
  | reset => rw [bytesAfterReset_reset]; exact .clearRegisters s
  | violation w r hv => rw [bytesAfterReset_violation bs hr hv]; exact { hd with }
  | rxAcc b _ _ hc => rw [bytesAfterReset_rx]; exact hd.collect hc b
  | cgPause b _ _ hc hs => rw [bytesAfterReset_rx]; exact hd.complete hc b hr (by simp [hs])
  | cgResume b _ _ hc hs => rw [bytesAfterReset_rx]; exact hd.complete hc b hr (by simp [hs])
  | start | txOkHdr | txOkPay | txErrHdr | txErrPay =>
    rw [bytesAfterReset_other bs (by decide) (by decide)]; exact { hd with }
  | stepHdr => exact { hd with }
  | stepPay =>
    rw [bytesAfterReset_engine]
    exact ⟨by simpa using hr, by simpa using hd.cnt, by simpa using hd.acc, by simpa using hd.sending⟩

theorem Decoded.run {ts : List Turn} {t : State} (h : runTurns ts s = .next t) :
    Decoded (bytesAfterReset bs ts) t := by
  refine run_induct (fun s xs => ∃ cs, Decoded cs s ∧ bytesAfterReset cs xs = bytesAfterReset bs ts)
    (Decoded (bytesAfterReset bs ts)) ?_ ?_ ts s t ⟨bs, hd, rfl⟩ h
  · rintro v ⟨cs, hcs, e⟩
    exact { (show Decoded (bytesAfterReset bs ts) v from e ▸ hcs) with }
  · rintro v x xs w ⟨cs, hcs, e⟩ hx
    exact ⟨_, hcs.react hx, by rw [← bytesAfterReset_cons, e]⟩

end

/-- R180: a run that begins with RESET starts with no byte. -/
theorem decoded_of_run {ts : List Turn} {s t : State} (h : runTurns (lineReset :: ts) s = .next t) :
    Decoded (bytesAfterReset [] ts) t := by
  have hreset : Reacts s lineReset s.clearRegisters := lineReset_eq ▸ .reset
  rw [runTurns_of_reacts hreset] at h
  exact (Decoded.clearRegisters s).run h

/-- Settles O29: the registers of `Decoded`, carried from RESET to the end of the run. -/
theorem decoderStateDependsOnTheBytesAlone : Obligations.DecoderStateDependsOnTheBytesAlone := by
  intro ts s t h
  obtain ⟨_, hcnt, hacc, hsend⟩ := decoded_of_run h
  exact ⟨hcnt, hacc, hsend⟩

/-- Settles O28: `sending` of `Decoded`, toggled by each complete group. -/
theorem eachGroupTogglesSending : Obligations.EachGroupTogglesSending :=
  fun _ _ _ h => (decoded_of_run h).sending

end Sys2Proof.Machine
end

section
/-! SUPPORT. When STEP is enabled, and what the engine's reactions of the phase RUN do: STEP.PAY and the two answers to
the payload byte in flight (spec/41_streamer.md R111, R112, R114 to R116). -/

namespace Sys2Proof.Machine

/-! ### STEP enabled -/

/-- R111's condition, in a state after the first RESET. -/
theorem stepEnabled_iff_of_taken {s : State} (hr : s.wasReset = true) :
    s.stepEnabled = true ↔
      s.fault = none ∧ s.busy = false ∧ (s.phase = .hdr ∨ (s.phase = .run ∧ (s.lreq = true ∨ s.act = true))) := by
  rw [stepEnabled_iff, hdrEnabled_iff, payEnabled_iff]
  tauto

/-- In RUN only STEP.PAY can be enabled, by a request or a live invocation. -/
theorem stepEnabled_of_run {s : State} (hp : s.phase = .run) :
    s.stepEnabled = (s.engineFree && (s.lreq || s.act)) := by
  simp [State.stepEnabled, State.hdrEnabled, State.payEnabled, hp]

theorem stepEnabled_of_ended_invocation {s : State} (hp : s.phase = .run) (hact : s.act = false)
    (hlreq : s.lreq = false) : s.stepEnabled = false := by
  rw [stepEnabled_of_run hp, hact, hlreq]
  exact Bool.and_false _

theorem Reacts.stepEnabled {s u : State} (h : Reacts s .engine u) : s.stepEnabled = true := by
  cases h with
  | stepHdr b he _ => exact stepEnabled_iff.2 (.inl he)
  | stepPay he => exact stepEnabled_iff.2 (.inr he)

/-- The engine's turn happens exactly where STEP is enabled. -/
theorem StateInv.exists_engine_reacts_iff {s : State} (hi : StateInv s) :
    (∃ u, Reacts s .engine u) ↔ s.stepEnabled = true :=
  ⟨fun ⟨_, h⟩ => h.stepEnabled, hi.engine_reacts⟩

theorem exec_next_iff_reacts {s u : State} {t : Turn} : exec (decodeTurn s.sel t) s = .next u ↔ Reacts s t u :=
  ⟨reacts_of_exec, exec_of_reacts⟩

/-- Settles O41: the two forms' conditions together are R111's, and the schedule plays no part in them. -/
theorem stepHappensExactlyWhenEnabled : Obligations.StepHappensExactlyWhenEnabled := by
  intro s rest hi hq
  refine ⟨stepEnabled_iff_of_taken hi.taken, ?_⟩
  rw [step_cons hq]
  calc (∃ t, exec (decodeTurn s.sel .engine) { s with schedule := rest } = .next t)
      ↔ ∃ t, Reacts { s with schedule := rest } .engine t :=
        exists_congr fun _ => exec_next_iff_reacts (s := { s with schedule := rest })
    _ ↔ s.stepEnabled = true := (hi.withSchedule rest).exists_engine_reacts_iff

/-! ### STEP.PAY -/

theorem execStepPay_enabled {s : State} (ha : Accepting s) (hb : s.busy = false) (hp : s.phase = .run)
    (hl : s.lreq = true ∨ s.act = true) : exec .stepPay s = .next (streamOne s.takeLaunch) :=
  engineStep_next.2 ⟨payEnabled_iff.2 ⟨ha.1, ha.2, hb, hp, hl⟩, rfl⟩

/-- Settles O42: the three outcomes of `stream_out`, each under its own condition. -/
theorem stepPayTakesTheNextAction : Obligations.StepPayTakesTheNextAction := by
  intro s ha hb hp hl
  refine ⟨if_neg (by simp [hp]), s.streamIndex, rfl, ?_⟩
  rw [execStepPay_enabled ha hb hp hl]
  obtain ⟨hN, e⟩ | ⟨hlt, hs, e⟩ | ⟨hlt, hs, e⟩ := stream_out s hl
  · have hN' := Nat.not_lt.2 hN
    exact ⟨fun _ => congrArg _ e, fun h => absurd h hN', fun h => absurd h hN'⟩
  · exact ⟨fun h => absurd hlt (Nat.not_lt.2 h), fun _ _ => congrArg _ e, fun _ h => by simp [hs] at h⟩
  · exact ⟨fun h => absurd hlt (Nat.not_lt.2 h), fun _ h => by simp [hs] at h,
      fun _ _ => ⟨_, Memory.read_of_lt hlt, congrArg _ e⟩⟩

/-- R112, R116: of all reactions only STEP.PAY at the end of the buffer emits DONE; it leaves no invocation and no
request. -/
theorem Reacts.done {s u : State} {t : Turn} (h : Reacts s t u) (htr : u.trace = s.trace ++ [.done]) :
    s.phase = .run ∧ s.busy = false ∧ s.payloadSize ≤ s.streamIndex ∧
      u = { s with pos := s.streamIndex, lreq := false, act := false, trace := s.trace ++ [.done] } := by
  cases h with
  | stepPay he =>
    obtain ⟨_, _, hb, hp, hl⟩ := payEnabled_iff.1 he
    obtain ⟨hN, e⟩ | ⟨_, _, e⟩ | ⟨_, _, e⟩ := stream_out s hl
    · exact ⟨hp, hb, hN, e⟩
    · simp [e] at htr
    · simp [e] at htr
  | reset | violation | start | rxAcc | cgPause | cgResume | txOkHdr | txOkPay | txErrHdr | txErrPay | stepHdr =>
    simp at htr

/-- Settles O48: the wait emits nothing, and in RUN with neither invocation nor request STEP is disabled. -/
theorem doneEndsTheInvocation : Obligations.DoneEndsTheInvocation := by
  intro s t h htr
  obtain rfl | ⟨_, _, hr⟩ := step_turn h
  · simp at htr
  · obtain ⟨hp, hb, hN, e⟩ := hr.done htr
    rw [e]
    exact ⟨hp, hb, hN, rfl, rfl, hb, rfl, stepEnabled_of_ended_invocation hp rfl rfl⟩

/-! ### The answer to the payload byte in flight -/

/-- R157: each form of a response to a word is RespNoWrite with nothing in flight. -/
theorem hostEvent_noWrite {w : EventWord} {sel : Bool} {s t : State} (hr : s.wasReset = true) (hb : s.busy = false) :
    hostEvent w (noWrite w s) sel s t = .next { s with fault := s.fault.or (some (.respNoWrite w)) } := by
  rw [noWrite_some.2 ⟨hb, rfl⟩, hostEvent_of_violation w hr]

/-- Settles O43: RUN selects the form, and what it writes leaves the engine free. -/
theorem payloadDrainAdvancesTheCursor : Obligations.PayloadDrainAdvancesTheCursor := by
  intro s hr hp
  rw [okWord_eq, decodeEvent_ok]
  refine ⟨if_neg (by simp [hp]), fun hf hb => ⟨?_, fun hact => ?_⟩, hostEvent_noWrite hr⟩
  · exact hostEvent_ok hr hf (noWrite_none.2 hb) (decide_eq_true hp)
  · simp [stepEnabled_of_run, State.engineFree, hp, hr, hf, hact]

/-- Settles O44: RUN selects the form, after which only a pending request enables STEP. -/
theorem payloadErrorEndsTheInvocation : Obligations.PayloadErrorEndsTheInvocation := by
  intro s hr hp
  rw [errWord_eq, decodeEvent_err]
  refine ⟨if_neg (by simp [hp]), fun hf hb => ⟨?_, ?_⟩, hostEvent_noWrite hr⟩
  · exact hostEvent_ok hr hf (noWrite_none.2 hb) (decide_eq_true hp)
  · simp [stepEnabled_of_run, State.engineFree, hp, hr, hf]

/-! ### With nothing offered -/

/-- A STEP never leaves the state as it was: it puts a byte in flight, or it ends what enabled it. -/
theorem Reacts.engine_ne {s u : State} (h : Reacts s .engine u) : u ≠ s := by
  intro hu
  cases h with
  | stepHdr b he _ =>
    obtain ⟨_, _, hb, _⟩ := hdrEnabled_iff.1 he
    have hbusy := congrArg State.busy hu
    simp [hb] at hbusy
  | stepPay he =>
    obtain ⟨_, _, hb, _, hl⟩ := payEnabled_iff.1 he
    have hlreq := congrArg State.lreq hu
    have hact := congrArg State.act hu
    have hbusy := congrArg State.busy hu
    obtain ⟨_, e⟩ | ⟨_, _, e⟩ | ⟨_, _, e⟩ := stream_out s hl <;> rw [e] at hlreq hact hbusy
    · simp [← hlreq, ← hact] at hl
    · simp [← hlreq, ← hact] at hl
    · simp [hb] at hbusy

/-- A complete and a stalled run have both ended, which is quiescent (R195). -/
theorem stepEnabled_of_ended {s : State} (h : Complete s = true ∨ Stalled s = true) : s.stepEnabled = false := by
  simp only [Complete, Stalled, Ended, Quiescent, Bool.and_eq_true, Bool.not_eq_true'] at h
  obtain ⟨⟨⟨⟨_, he⟩, _⟩, _⟩, _⟩ | ⟨⟨⟨⟨_, he⟩, _⟩, _⟩, _⟩ := h
  · exact he
  · exact he

theorem step_waits {s : State} (hq : s.schedule = []) (he : s.stepEnabled = false) : step s = .next s := by
  rw [step_nil hq, if_neg (by simp [he])]

theorem step_moves {s : State} (hq : s.schedule = []) (he : s.stepEnabled = true) :
    step s = exec (decodeTurn s.sel .engine) s := by
  rw [step_nil hq, if_pos he]

/-- Settles O56: a state that a step keeps cannot have STEP enabled, since every STEP changes the state. -/
theorem withNothingOfferedTheEngineMovesOrWaits : Obligations.WithNothingOfferedTheEngineMovesOrWaits := by
  intro s hq
  refine ⟨step_moves hq, step_waits hq, fun h => step_waits hq (stepEnabled_of_ended h),
    fun _ => ⟨fun h => ?_, step_waits hq⟩⟩
  by_contra he
  rw [step_moves hq (by simpa using he)] at h
  exact (reacts_of_exec h).engine_ne rfl

end Sys2Proof.Machine
end

section
/-! SUPPORT. Runs in which no resume group completes: the inbound bytes still to come bound what the decoder can do, and
the engine of a phase RUN then writes no byte while paused, and nothing once its invocation has ended
(spec/41_streamer.md R113, R117, R119). -/

namespace Sys2Proof.Machine

/-- The turns hold no RESET, and their inbound bytes complete no resume group: paused that takes one group, sending two,
the first of which pauses (R100, R108). -/
def NoResume (s : State) (ts : List Turn) : Prop :=
  lineReset ∉ ts ∧ s.cnt.toNat + (ts.filter Turn.isRx).length < if s.sending then 6 else 3

section
variable {s u : State} {x : Turn} {xs : List Turn}

theorem NoResume.not_reset (hn : NoResume s (x :: xs)) : x ≠ lineReset := by
  rintro rfl
  exact hn.1 (List.mem_cons_self ..)

/-- A turn that keeps the decoder's count uses up none of the bytes. -/
theorem NoResume.keep (hn : NoResume s (x :: xs)) (hc : u.cnt = s.cnt) (hs : u.sending = s.sending) :
    NoResume u xs := by
  obtain ⟨hmem, hlt⟩ := hn
  have hle := (List.sublist_cons_self x xs).filter Turn.isRx |>.length_le
  rw [← hc, ← hs] at hlt
  exact ⟨fun h => hmem (List.mem_cons_of_mem x h), by omega⟩

/-- The byte of an RX event comes off the count. -/
theorem NoResume.tail_rx {b : Byte} (hn : NoResume s (.event (mkEvent 2 b) :: xs)) :
    lineReset ∉ xs ∧ s.cnt.toNat + ((xs.filter Turn.isRx).length + 1) < if s.sending then 6 else 3 := by
  obtain ⟨hmem, hlt⟩ := hn
  rw [List.filter_cons_of_pos (by simp [Turn.isRx]), List.length_cons] at hlt
  exact ⟨fun h => hmem (List.mem_cons_of_mem _ h), hlt⟩

/-- While paused, the next byte cannot complete a group. -/
theorem NoResume.cnt_lt {b : Byte} (hn : NoResume s (.event (mkEvent 2 b) :: xs)) (hs : s.sending = false) :
    s.cnt.toNat < 2 := by
  obtain ⟨_, hlt⟩ := hn.tail_rx
  rw [if_neg (by simp [hs])] at hlt
  omega

/-- One reaction uses up its byte; the pause group it may complete leaves less than a group for the resume. -/
theorem Reacts.noResume (h : Reacts s x u) (hn : NoResume s (x :: xs)) : NoResume u xs := by
  cases h with
  | reset => exact absurd lineReset_eq.symm hn.not_reset
  | rxAcc b _ _ hc =>
    obtain ⟨hmem, hlt⟩ := hn.tail_rx
    refine ⟨hmem, ?_⟩
    dsimp only
    rw [cnt_succ_toNat hc]
    omega
  | cgPause b _ _ hc hs =>
    obtain ⟨hmem, hlt⟩ := hn.tail_rx
    rw [if_pos hs] at hlt
    exact ⟨hmem, show 0 + _ < 3 by omega⟩
  | cgResume b _ _ hc hs => exact absurd (hn.cnt_lt hs) hc
  | stepPay => exact hn.keep (by simp) (by simp)
  | violation | start | txOkHdr | txOkPay | txErrHdr | txErrPay | stepHdr => exact hn.keep rfl rfl

/-- Without a resume group a paused engine stays paused. -/
theorem Reacts.sending_false (h : Reacts s x u) (hn : NoResume s (x :: xs)) (hs : s.sending = false) :
    u.sending = false := by
  obtain e | rfl | ⟨hc, b, rfl⟩ := h.sending_cases
  · exact e.trans hs
  · exact absurd rfl hn.not_reset
  · rw [lineRx_eq] at hn
    exact absurd (hn.cnt_lt hs) (Nat.not_lt.2 hc)

/-- RUN is left by RESET only (R24). -/
theorem Reacts.phase_run (h : Reacts s x u) (hx : x ≠ lineReset) (hp : s.phase = .run) : u.phase = .run := by
  obtain e | ⟨hq, _⟩ | ⟨hq, _⟩ | ⟨hq, _⟩ | ⟨_, e⟩ := h.phase_cases
  · exact e.trans hp
  · cases hp.symm.trans hq
  · cases hp.symm.trans hq
  · cases hp.symm.trans hq
  · exact absurd e hx

/-! ### Paused -/

/-- R117: in RUN, paused, a reaction emits at most a DONE or a WERR. -/
theorem Reacts.outboundBytes_paused (h : Reacts s x u) (hp : s.phase = .run) (hs : s.sending = false) :
    outboundBytes u.trace = outboundBytes s.trace := by
  cases h with
  | reset | violation | start | rxAcc | cgPause | cgResume | txOkHdr | txOkPay => rfl
  | txErrHdr _ _ _ hh => cases hp.symm.trans hh
  | txErrPay => simp [outboundBytes]
  | stepHdr b he =>
    obtain ⟨_, _, _, hh⟩ := hdrEnabled_iff.1 he
    cases hp.symm.trans hh
  | stepPay he =>
    obtain ⟨_, _, _, _, hl⟩ := payEnabled_iff.1 he
    obtain ⟨_, e⟩ | ⟨_, _, e⟩ | ⟨_, ht, _⟩ := stream_out s hl
    · simp [e, outboundBytes]
    · simp [e]
    · cases hs.symm.trans ht

/-- In RUN, paused, with no resume group to come and the bytes `bs` sent so far. -/
structure PausedRun (bs : List Byte) (s : State) (ts : List Turn) : Prop where
  phase : s.phase = .run
  sending : s.sending = false
  sent : outboundBytes s.trace = bs
  noResume : NoResume s ts

theorem PausedRun.react {bs : List Byte} (hi : PausedRun bs s (x :: xs)) (h : Reacts s x u) : PausedRun bs u xs where
  phase := h.phase_run hi.noResume.not_reset hi.phase
  sending := h.sending_false hi.noResume hi.sending
  sent := (h.outboundBytes_paused hi.phase hi.sending).trans hi.sent
  noResume := h.noResume hi.noResume

/-! ### Ended -/

/-- Nothing is in flight, live or pending in a phase RUN that has emitted `os`. -/
structure Silent (os : List OutEvent) (s : State) : Prop where
  phase : s.phase = .run
  trace : s.trace = os
  act : s.act = false
  busy : s.busy = false
  lreq : s.lreq = false

theorem Silent.not_stepEnabled {os : List OutEvent} (hi : Silent os s) : s.stepEnabled = false :=
  stepEnabled_of_ended_invocation hi.phase hi.act hi.lreq

/-- R113, R119: START is a violation in RUN, a response is one with nothing in flight, and STEP is disabled; so without
RESET and a resume group nothing wakes the engine. -/
theorem Silent.react {os : List OutEvent} (hi : Silent os s) (hn : NoResume s (x :: xs)) (h : Reacts s x u) :
    Silent os u := by
  have hbusy : ¬ s.busy = true := by simp [hi.busy]
  cases h with
  | reset => exact absurd lineReset_eq.symm hn.not_reset
  | start _ _ hp => cases hi.phase.symm.trans hp
  | violation | rxAcc | cgPause => exact { hi with }
  | cgResume b _ _ hc hs => exact absurd (hn.cnt_lt hs) hc
  | txOkHdr _ _ hb | txOkPay _ _ hb | txErrHdr _ _ hb | txErrPay _ _ hb => exact absurd hb hbusy
  | stepHdr b he hb => cases hi.not_stepEnabled.symm.trans (Reacts.stepHdr b he hb).stepEnabled
  | stepPay he => cases hi.not_stepEnabled.symm.trans (Reacts.stepPay he).stepEnabled

end

/-- Settles O49: every reaction of the run keeps the engine in RUN, paused, and the bytes sent. -/
theorem aPausedEngineWritesNoPayload : Obligations.APausedEngineWritesNoPayload := by
  intro ts s t hp hs hmem hlt h
  have hn : NoResume s ts := ⟨hmem, by rw [hs]; exact hlt⟩
  exact run_induct (PausedRun (outboundBytes s.trace)) (fun t => outboundBytes t.trace = outboundBytes s.trace)
    (fun _ hi => hi.sent) (fun _ _ _ _ hi hr => hi.react hr) ts s t ⟨hp, hs, rfl, hn⟩ h

/-- Settles O50: every reaction of the run keeps the engine silent. -/
theorem anEndedInvocationIsSilent : Obligations.AnEndedInvocationIsSilent := by
  intro ts s t hp hb ha hl hmem hlt h
  have hend : Silent s.trace t :=
    run_induct (fun v xs => Silent s.trace v ∧ NoResume v xs) (Silent s.trace)
      (fun _ hi => { hi.1 with }) (fun _ _ _ _ hi hr => ⟨hi.1.react hi.2 hr, hr.noResume hi.2⟩)
      ts s t ⟨⟨hp, rfl, ha, hb, hl⟩, hmem, hlt⟩ h
  exact ⟨hend.trace, hend.act, hend.busy, hend.lreq⟩

end Sys2Proof.Machine
end

section
/-! SUPPORT. One invocation from its launch to DONE, with inbound bytes that complete no group anywhere among its lines
(spec/41_streamer.md R112, R114, R118). -/

namespace Sys2Proof.Machine

/-- A run reaches its end if `P`, of the state and of what is still to come, lets every turn happen and survives it. -/
theorem run_progress (P : State → List Turn → Prop)
    (hs : ∀ s x xs, P s (x :: xs) → ∃ u, Reacts s x u ∧ P u xs) :
    ∀ ts s, P s ts → ∃ t, runTurns ts s = .next { t with schedule := [] } ∧ P t [] := by
  intro ts
  induction ts with
  | nil => intro s hp; exact ⟨s, rfl, hp⟩
  | cons x xs ih =>
    intro s hp
    obtain ⟨u, hu, hpu⟩ := hs s x xs hp
    obtain ⟨t, ht, hpt⟩ := ih u hpu
    exact ⟨t, (runTurns_of_reacts hu).trans ht, hpt⟩

/-- The lines of an invocation that stands at index `r` of a payload of `n` bytes: one `xfer` a byte, then the STEP that
finds the end. -/
def tailLines (n r : Nat) : List Turn := (List.replicate (n - r) xfer).flatten ++ [lineStep]

theorem tailLines_of_lt {n r : Nat} (h : r < n) : tailLines n r = lineStep :: lineOk :: tailLines n (r + 1) := by
  rw [tailLines, show n - r = n - (r + 1) + 1 by omega, List.replicate_succ, List.flatten_cons]
  rfl

theorem tailLines_of_le {n r : Nat} (h : n ≤ r) : tailLines n r = [lineStep] := by
  rw [tailLines, Nat.sub_eq_zero_of_le h]
  rfl

theorem payloadFrom_of_le {s : State} {r : Nat} (h : s.payloadSize ≤ r) : payloadFrom s r = [] := by
  rw [payloadFrom, Nat.sub_eq_zero_of_le h]
  rfl

/-- Where an invocation stands that is to end at cursor `p` with the trace `os`, and the lines `l` it has still to take:
before a STEP, with a byte in flight, or after DONE. What it has emitted and what its lines still emit make `os`. -/
inductive Stage (os : List OutEvent) (p : Nat) (s : State) (l : List Turn) : Prop where
  | ready (hl : l = tailLines s.payloadSize s.streamIndex) (hb : s.busy = false) (hlive : s.lreq = true ∨ s.act = true)
      (hp : max s.streamIndex s.payloadSize = p)
      (htr : s.trace ++ (payloadFrom s s.streamIndex).map .tx ++ [.done] = os)
  | inFlight (hl : l = lineOk :: tailLines s.payloadSize (s.pos + 1)) (hb : s.busy = true) (hact : s.act = true)
      (hlreq : s.lreq = false) (hp : max (s.pos + 1) s.payloadSize = p)
      (htr : s.trace ++ (payloadFrom s (s.pos + 1)).map .tx ++ [.done] = os)
  | ended (hl : l = []) (hb : s.busy = false) (hact : s.act = false) (hlreq : s.lreq = false) (hp : s.pos = p)
      (htr : s.trace = os)

/-- An invocation under way in RUN, while sending, with `n` inbound bytes still to come that complete no group. -/
structure Streaming (os : List OutEvent) (p : Nat) (l : List Turn) (n : Nat) (s : State) : Prop where
  accepting : Accepting s
  phase : s.phase = .run
  sending : s.sending = true
  count : s.cnt.toNat + n < 3
  stage : Stage os p s l

section
variable {os : List OutEvent} {p n : Nat} {l : List Turn} {s : State}

/-- A byte that completes no group writes the accumulator and its count only. -/
theorem Streaming.rx (h : Streaming os p l (n + 1) s) (b : Byte) :
    ∃ u, Reacts s (lineRx b) u ∧ Streaming os p l n u := by
  obtain ⟨ha, hp, hs, hc, hst⟩ := h
  have hc2 : s.cnt.toNat < 2 := by omega
  refine ⟨_, rxState_reacts b ha, ?_⟩
  rw [rxState_of_lt hc2]
  refine ⟨ha, hp, hs, ?_, ?_⟩
  · rw [cnt_succ_toNat hc2]
    omega
  · cases hst with
    | ready hl hb hlive hp htr => exact .ready hl hb hlive hp htr
    | inFlight hl hb hact hlreq hp htr => exact .inFlight hl hb hact hlreq hp htr
    | ended hl hb hact hlreq hp htr => exact .ended hl hb hact hlreq hp htr

/-- Each line of the invocation moves it on: a STEP writes the next byte or finds the end, and TX_OK drains a byte. -/
theorem Streaming.line {x : Turn} (h : Streaming os p (x :: l) n s) :
    ∃ u, Reacts s x u ∧ Streaming os p l n u := by
  obtain ⟨⟨hr, hf⟩, hrun, hs, hc, hst⟩ := h
  cases hst with
  | ready hl hb hlive hp htr =>
    have hreact := Reacts.stepPay (payEnabled_iff.2 ⟨hr, hf, hb, hrun, hlive⟩)
    obtain ⟨hN, e⟩ | ⟨_, hs', _⟩ | ⟨hlt, _, e⟩ := stream_out s hlive
    · rw [tailLines_of_le hN] at hl
      obtain ⟨rfl, rfl⟩ := List.cons_eq_cons.1 hl
      rw [payloadFrom_of_le hN] at htr
      rw [e] at hreact
      refine ⟨_, hreact, ⟨hr, hf⟩, hrun, hs, hc, .ended rfl hb rfl rfl ?_ ?_⟩
      · rw [← hp, max_eq_left hN]
      · simpa using htr
    · cases hs.symm.trans hs'
    · rw [tailLines_of_lt hlt] at hl
      obtain ⟨rfl, rfl⟩ := List.cons_eq_cons.1 hl
      rw [payloadFrom_succ s _ hlt, List.map_cons, List.append_cons s.trace] at htr
      rw [e] at hreact
      refine ⟨_, hreact, ⟨hr, hf⟩, hrun, hs, hc, .inFlight rfl rfl rfl rfl ?_ ?_⟩
      · rw [← hp, max_eq_right hlt.le]
        exact max_eq_right hlt
      · exact htr
  | inFlight hl hb hact hlreq hp htr =>
    obtain ⟨rfl, rfl⟩ := List.cons_eq_cons.1 hl
    have hreact := Reacts.txOkPay hr hf hb hrun
    rw [← lineOk_eq] at hreact
    have hidx : State.streamIndex { s.answer with pos := s.pos + 1 } = s.pos + 1 := by
      simp [State.streamIndex, hlreq]
    refine ⟨_, hreact, ⟨hr, hf⟩, hrun, hs, hc, .ready ?_ rfl (.inr hact) ?_ ?_⟩
    · rw [hidx]; rfl
    · rw [hidx]; exact hp
    · rw [hidx]; exact htr
  | ended hl => cases hl

/-- Whatever line comes next, an inbound byte or the invocation's own, it happens. -/
theorem Streaming.react {x : Turn} {xs : List Turn}
    (h : Streaming os p ((x :: xs).filter (fun t => !t.isRx)) ((x :: xs).filter Turn.isRx).length s) :
    ∃ u, Reacts s x u ∧ Streaming os p (xs.filter (fun t => !t.isRx)) (xs.filter Turn.isRx).length u := by
  by_cases hx : x.isRx = true
  · rw [List.filter_cons_of_neg (by simp [hx]), List.filter_cons_of_pos hx, List.length_cons] at h
    obtain ⟨b, rfl⟩ := (isRx_iff x).1 hx
    exact h.rx b
  · rw [List.filter_cons_of_pos (by simp [hx]), List.filter_cons_of_neg hx] at h
    exact h.line

/-- With no line left the invocation has ended. -/
theorem Stage.of_nil (h : Stage os p s []) :
    s.trace = os ∧ s.pos = p ∧ s.act = false ∧ s.lreq = false ∧ s.busy = false := by
  cases h with
  | ready hl => simp [tailLines] at hl
  | inFlight hl => cases hl
  | ended hl hb hact hlreq hp htr => exact ⟨htr, hp, hact, hlreq, hb⟩

end

/-- Settles O45: from the launch at `loff` every line moves the invocation on, and its bytes in between do not disturb
it. -/
theorem invocationEmitsTheTailThenDone : Obligations.InvocationEmitsTheTailThenDone := by
  intro s ts ha hp hb hs hl hts hcnt
  have hidx : s.streamIndex = s.loff := if_pos hl
  have hstart : Streaming (s.trace ++ (payloadFrom s s.loff).map .tx ++ [.done]) (max s.loff s.par.payload.size)
      (ts.filter (fun t => !t.isRx)) (ts.filter Turn.isRx).length s :=
    ⟨ha, hp, hs, hcnt, .ready (by rw [hts, hidx]; rfl) hb (.inl hl) (by rw [hidx]; rfl) (by rw [hidx])⟩
  obtain ⟨t, hrun, hend⟩ := run_progress
    (fun v xs => Streaming _ _ (xs.filter (fun t => !t.isRx)) (xs.filter Turn.isRx).length v)
    (fun _ _ _ h => h.react) ts s hstart
  exact ⟨_, hrun, hend.stage.of_nil⟩

end Sys2Proof.Machine
end

section
/-! SUPPORT. The Header Encoder by itself (spec/42_header.md R130 to R135): START, STEP.HDR, the two answers to the
header byte in flight, and the length that the header's bytes spell. -/

namespace Sys2Proof.Machine

/-! ### START -/

/-- R130: START in any other phase than IDLE is StartNotIdle. -/
theorem hostEvent_notIdle {w : EventWord} {sel : Bool} {s t : State} (hr : s.wasReset = true) (hp : s.phase ≠ .idle) :
    hostEvent w (notIdle s) sel s t = .next { s with fault := s.fault.or (some (.startNotIdle s.phase)) } := by
  rw [notIdle, if_neg hp, hostEvent_of_violation w hr]

/-- In HDR only STEP.HDR can be enabled, whatever the launch registers hold. -/
theorem stepEnabled_of_hdr {s : State} (hp : s.phase = .hdr) : s.stepEnabled = s.engineFree := by
  simp [State.stepEnabled, State.hdrEnabled, State.payEnabled, hp]

/-- Settles O32: phase IDLE is START's one condition, and in HDR STEP waits only for the byte in flight. -/
theorem startBeginsTheTransfer : Obligations.StartBeginsTheTransfer := by
  intro s hr
  rw [startWord_eq, decodeEvent_start]
  refine ⟨rfl, fun hp hf => ⟨?_, ?_⟩, hostEvent_notIdle hr⟩
  · exact hostEvent_ok hr hf (if_pos hp) rfl
  · rw [stepEnabled_of_hdr rfl]
    simp [State.engineFree, hr, hf]

/-! ### STEP.HDR -/

/-- Everything STEP.HDR answers as a next state (R131). -/
theorem execStepHdr_next {s u : State} :
    exec .stepHdr s = .next u ↔ s.hdrEnabled = true ∧ ∃ b, s.headerByte s.hidx = some b ∧ u = s.writeByte b := by
  rw [exec, execStepHdr, engineStep_next]
  refine and_congr_right fun _ => ?_
  cases s.headerByte s.hidx with
  | none => simp
  | some b =>
    constructor
    · rintro ⟨⟩
      exact ⟨b, rfl, rfl⟩
    · rintro ⟨_, ⟨⟩, rfl⟩
      rfl

/-- The low byte of N shifted right, as R75 writes a field of the length. -/
theorem ofNat_shiftRight_toNat (n k : Nat) : (BitVec.ofNat 8 (n >>> k)).toNat = n / 2 ^ k % 256 := by
  rw [BitVec.toNat_ofNat, Nat.shiftRight_eq_div_pow]

/-- Settles O33: the byte is `hdr(hidx)`, read index by index. -/
theorem stepHdrEmitsTheHeaderByte : Obligations.StepHdrEmitsTheHeaderByte := by
  intro s ha hb hp h3
  obtain ⟨b, hbyte⟩ := headerByte_some h3
  refine ⟨if_pos hp, b, ?_, fun h => ?_, fun h => ?_, fun h => ?_, fun h => ?_⟩
  · exact execStepHdr_next.2 ⟨hdrEnabled_iff.2 ⟨ha.1, ha.2, hb, hp⟩, b, hbyte, rfl⟩
  all_goals rw [h] at hbyte; cases hbyte
  · rfl
  · exact ofNat_shiftRight_toNat _ 16
  · exact ofNat_shiftRight_toNat _ 8
  · exact BitVec.toNat_ofNat _ _

/-! ### The answer to the header byte in flight -/

/-- Settles O34: HDR selects the form, and `phaseAfterHeader` opens RUN at index 4. -/
theorem headerDrainAdvancesTheHeader : Obligations.HeaderDrainAdvancesTheHeader := by
  intro s hr hp
  rw [okWord_eq, decodeEvent_ok]
  refine ⟨if_pos hp, fun hf hb => ?_, hostEvent_noWrite hr⟩
  rw [← hp]
  exact hostEvent_ok hr hf (noWrite_none.2 hb) (decide_eq_true hp)

/-- Settles O35: HDR selects the form, whose write is the report and the phase FAIL. -/
theorem headerErrorFailsTheTransfer : Obligations.HeaderErrorFailsTheTransfer := by
  intro s hr hp
  rw [errWord_eq, decodeEvent_err]
  refine ⟨if_pos hp, fun hf hb => ?_, hostEvent_noWrite hr⟩
  exact hostEvent_ok hr hf (noWrite_none.2 hb) (decide_eq_true hp)

/-! ### Send State -/

/-- Settles O38: neither the guards nor the writes of the two reactions name `sending`, so each answer carries over,
the three of TX_OK.HDR by the branch that gives it. -/
theorem headerIgnoresSendState : Obligations.HeaderIgnoresSendState := by
  intro s u x
  refine ⟨fun h => ?_, fun h => ?_⟩
  · obtain ⟨he, b, hb, rfl⟩ := execStepHdr_next.1 h
    exact execStepHdr_next.2 ⟨he, b, hb, rfl⟩
  · obtain ⟨hr, rfl⟩ | ⟨hr, r, hv, rfl⟩ | ⟨hr, hv, hf, hp, rfl⟩ := hostEvent_next.1 h
    · exact hostEvent_next.2 (.inl ⟨hr, rfl⟩)
    · exact hostEvent_next.2 (.inr (.inl ⟨hr, r, hv, rfl⟩))
    · exact hostEvent_next.2 (.inr (.inr ⟨hr, hv, hf, hp, rfl⟩))

/-! ### The length field -/

/-- R135: the last three header bytes spell N mod 2^24. -/
theorem headerLength_toNat (n : Nat) :
    (BitVec.ofNat 8 (n >>> 16)).toNat * 65536 + (BitVec.ofNat 8 (n >>> 8)).toNat * 256 + (BitVec.ofNat 8 n).toNat =
      n % 2 ^ 24 := by
  rw [ofNat_shiftRight_toNat, ofNat_shiftRight_toNat, BitVec.toNat_ofNat]
  omega

theorem bigEndian_three (b0 b1 b2 : Byte) :
    bigEndian [b0, b1, b2] = b0.toNat * 65536 + b1.toNat * 256 + b2.toNat := by
  simp only [bigEndian, List.foldl]
  omega

/-- Settles O37: three bytes hold 24 bits of N, which are all of N up to 2^24 - 1. -/
theorem headerLengthIsTruncated : Obligations.HeaderLengthIsTruncated := by
  intro idByte n
  have hlen : bigEndian (headerBytes idByte n).tail = n % 2 ^ 24 :=
    (bigEndian_three _ _ _).trans (headerLength_toNat n)
  refine ⟨rfl, hlen, ?_⟩
  rw [hlen]
  omega

end Sys2Proof.Machine
end

section
/-! SUPPORT. A transfer's opening: START and the header's lines, with RX events anywhere among them
(spec/42_header.md R136). An RX event writes no register of the header (R101 to R103), and each line moves it on. -/

namespace Sys2Proof.Machine

/-- R25: below 4 the header index does not wrap. -/
theorem hidx_succ_toNat {h : BitVec 3} (h3 : h.toNat ≤ 3) : (h + 1).toNat = h.toNat + 1 := by
  revert h; decide

/-- R132: only the fourth byte changes the phase. -/
theorem phaseAfterHeader_of_le_three {h : BitVec 3} (h3 : h.toNat ≤ 3) (p : Phase) : phaseAfterHeader h p = p :=
  if_neg (by rintro rfl; exact absurd h3 (by decide))

/-- The header bytes from index `hidx` on (R131). -/
def State.headerRest (s : State) : List Byte := (headerBytes s.par.idByte s.payloadSize).drop s.hidx.toNat

/-- The lines that send the header bytes `bs`, one `xfer` a byte (R83). -/
def xferLines (bs : List Byte) : List Turn := bs.flatMap fun _ => xfer

section
variable {s : State} {b : Byte} {bs : List Byte}

theorem headerByte_of_headerRest (h : s.headerRest = b :: bs) : s.headerByte s.hidx = some b := by
  rw [State.headerByte, ← List.head?_drop, ← State.headerRest, h]
  rfl

theorem hidx_le_three_of_headerRest (h : s.headerRest = b :: bs) : s.hidx.toNat ≤ 3 := by
  by_contra h4
  rw [State.headerRest, List.drop_eq_nil_of_le (by simp [headerBytes]; omega)] at h
  cases h

/-- After the drain of byte `hidx` the rest begins one byte later (R132). -/
theorem headerRest_drain (h : s.headerRest = b :: bs) (p : Phase) :
    State.headerRest { s.answer with hidx := s.hidx + 1, phase := p } = bs := by
  have h3 := hidx_le_three_of_headerRest h
  calc (headerBytes s.par.idByte s.payloadSize).drop (s.hidx + 1).toNat
      = s.headerRest.tail := by rw [hidx_succ_toNat h3, State.headerRest, List.tail_drop]
    _ = bs := by rw [h]; rfl

end

/-- Where a transfer stands that is to have the trace `os` after its header, and the lines `l` it has still to take:
before START, between two bytes, or with byte `hidx` in flight. What it has emitted and what its lines still emit make
`os`. -/
inductive HeaderStage (os : List OutEvent) (s : State) (l : List Turn) : Prop where
  | unstarted (hl : l = lineStart :: headerLines) (hp : s.phase = .idle) (hb : s.busy = false)
      (htr : s.trace ++ (headerBytes s.par.idByte s.payloadSize).map .tx = os)
  | between (hl : l = xferLines s.headerRest) (hp : s.phase = phaseAfterHeader s.hidx .hdr) (h4 : s.hidx.toNat ≤ 4)
      (hb : s.busy = false) (hlreq : s.lreq = true) (htr : s.trace ++ s.headerRest.map .tx = os)
  | inFlight (b : Byte) (bs : List Byte) (hrest : s.headerRest = b :: bs) (hl : l = lineOk :: xferLines bs)
      (hp : s.phase = .hdr) (hb : s.busy = true) (hlreq : s.lreq = true) (htr : s.trace ++ bs.map .tx = os)

/-- A header under way, with the parameters `p` and no fault. -/
structure HeaderRun (p : Params) (os : List OutEvent) (l : List Turn) (s : State) : Prop where
  accepting : Accepting s
  par : s.par = p
  stage : HeaderStage os s l

section
variable {p : Params} {os : List OutEvent} {l : List Turn} {s : State}

/-- A resume requests a launch, and no RX event takes a request back. -/
theorem rxState_lreq (h : s.lreq = true) (b : Byte) : (rxState s b).lreq = true := by
  rw [rxState]
  split_ifs
  · exact h
  · exact h
  · rfl

/-- R134: whatever the decoder makes of an inbound byte, the header goes on. -/
theorem HeaderRun.rx (h : HeaderRun p os l s) (b : Byte) : ∃ u, Reacts s (lineRx b) u ∧ HeaderRun p os l u := by
  obtain ⟨ha, hpar, hst⟩ := h
  refine ⟨_, rxState_reacts b ha, rxState_accepting ha b, ?_, ?_⟩
  · rw [rxState_frame]; exact hpar
  · cases hst with
    | unstarted hl hp hb htr => rw [rxState_frame]; exact .unstarted hl hp hb htr
    | between hl hp h4 hb hlreq htr =>
      have hlreq' := rxState_lreq hlreq b
      rw [rxState_frame] at hlreq' ⊢
      exact .between hl hp h4 hb hlreq' htr
    | inFlight c bs hrest hl hp hb hlreq htr =>
      have hlreq' := rxState_lreq hlreq b
      rw [rxState_frame] at hlreq' ⊢
      exact .inFlight c bs hrest hl hp hb hlreq' htr

/-- Each line moves the header on: START opens it at byte 0, a STEP emits byte `hidx`, and TX_OK drains it. -/
theorem HeaderRun.line {x : Turn} (h : HeaderRun p os (x :: l) s) : ∃ u, Reacts s x u ∧ HeaderRun p os l u := by
  obtain ⟨⟨hr, hf⟩, hpar, hst⟩ := h
  cases hst with
  | unstarted hl hp hb htr =>
    obtain ⟨rfl, rfl⟩ := List.cons_eq_cons.1 hl
    have hreact := Reacts.start hr hf hp
    rw [← lineStart_eq] at hreact
    exact ⟨_, hreact, ⟨hr, hf⟩, hpar, .between rfl rfl (Nat.zero_le _) hb rfl htr⟩
  | between hl hp h4 hb hlreq htr =>
    cases hrest : s.headerRest with
    | nil => rw [hrest] at hl; cases hl
    | cons b bs =>
      rw [hrest] at hl htr
      obtain ⟨rfl, rfl⟩ := List.cons_eq_cons.1 hl
      have hhdr : s.phase = .hdr := hp.trans (phaseAfterHeader_of_le_three (hidx_le_three_of_headerRest hrest) _)
      rw [List.map_cons, List.append_cons] at htr
      exact ⟨_, .stepHdr b (hdrEnabled_iff.2 ⟨hr, hf, hb, hhdr⟩) (headerByte_of_headerRest hrest), ⟨hr, hf⟩, hpar,
        .inFlight b bs hrest rfl hhdr rfl hlreq htr⟩
  | inFlight b bs hrest hl hp hb hlreq htr =>
    obtain ⟨rfl, rfl⟩ := List.cons_eq_cons.1 hl
    have hreact := Reacts.txOkHdr hr hf hb hp
    rw [← lineOk_eq, hp] at hreact
    have hrest' := headerRest_drain hrest (phaseAfterHeader (s.hidx + 1) .hdr)
    have h4 : (s.hidx + 1).toNat ≤ 4 := by
      have h3 := hidx_le_three_of_headerRest hrest
      rw [hidx_succ_toNat h3]
      exact Nat.succ_le_succ h3
    refine ⟨_, hreact, ⟨hr, hf⟩, hpar, .between ?_ rfl h4 rfl hlreq ?_⟩
    · rw [hrest']
    · rw [hrest']; exact htr

/-- With no line left the fourth byte has drained. -/
theorem HeaderStage.of_nil (h : HeaderStage os s []) :
    s.trace = os ∧ s.phase = .run ∧ s.hidx = 4 ∧ s.busy = false ∧ s.lreq = true := by
  cases h with
  | unstarted hl => cases hl
  | between hl hp h4 hb hlreq htr =>
    cases hrest : s.headerRest with
    | nil =>
      have hlen : 4 ≤ s.hidx.toNat := List.drop_eq_nil_iff.1 hrest
      have hidx : s.hidx = 4 := BitVec.eq_of_toNat_eq (le_antisymm h4 hlen)
      rw [hidx] at hp
      rw [hrest] at htr
      exact ⟨by simpa using htr, hp, hidx, hb, hlreq⟩
    | cons b bs => rw [hrest] at hl; cases hl
  | inFlight b bs hrest hl => cases hl

end

/-- The header of a transfer that begins in IDLE, for every N and with RX events anywhere among its lines. -/
theorem runTurns_header {s : State} {ts : List Turn} (ha : Accepting s) (hp : s.phase = .idle) (hb : s.busy = false)
    (hts : ts.filter (fun t => !t.isRx) = lineStart :: headerLines) :
    ∃ t, runTurns ts s = .next t ∧ t.trace = s.trace ++ (headerBytes s.par.idByte s.par.payload.size).map .tx ∧
      t.par = s.par ∧ t.phase = .run ∧ t.hidx = 4 ∧ t.busy = false ∧ t.lreq = true ∧ t.fault = none := by
  obtain ⟨t, hrun, ⟨_, hf⟩, hpar, hst⟩ := run_interleaved
    (HeaderRun s.par (s.trace ++ (headerBytes s.par.idByte s.par.payload.size).map .tx))
    (fun _ _ b h => h.rx b) (fun _ _ _ h => h.line) ts _ s hts ⟨ha, rfl, .unstarted rfl hp hb rfl⟩
  obtain ⟨htr, hphase, hidx, hbusy, hlreq⟩ := hst.of_nil
  exact ⟨_, hrun, htr, hpar, hphase, hidx, hbusy, hlreq, hf⟩

/-- Settles O36: RESET leaves a state in which a transfer can begin, and a length below 2^24 is spelled whole. -/
theorem headerLaw : Obligations.HeaderLaw := by
  intro s ts hf hN hts
  have hreset : Reacts s lineReset s.clearRegisters := by rw [lineReset_eq]; exact .reset
  obtain ⟨t, hrun, htr, _, hp, hidx, hb, _, hf'⟩ := runTurns_header (s := s.clearRegisters) ⟨rfl, hf⟩ rfl rfl hts
  refine ⟨t, _, _, _, (runTurns_of_reacts hreset).trans hrun, htr, ?_, hp, hidx, hb, hf'⟩
  rw [State.clearRegisters_par, headerLength_toNat]
  omega

end Sys2Proof.Machine
end

section
/-! SUPPORT. Events are taken as they come (spec/60_exceptions.md R153, R157), and what a reaction reports (R155, R156):
at most one output event, each from its own line, and no HostFault beside it. -/

namespace Sys2Proof.Machine

/-- Settles O20: the offered line is read, and without a fault every event word has a reaction. -/
theorem everyOfferedEventIsTaken : Obligations.EveryOfferedEventIsTaken := by
  intro s w rest hi hf hq
  obtain ⟨u, hu⟩ := (hi.withSchedule rest).event_reacts hf w
  exact ⟨u, (step_cons hq).trans (exec_of_reacts hu)⟩

/-- Settles O17: each form's violation is RespNoWrite, which comes before the form is looked at. -/
theorem responseWithNothingInFlightIsHostFault : Obligations.ResponseWithNothingInFlightIsHostFault := by
  intro s hr hb
  rw [okWord_eq, errWord_eq]
  exact ⟨hostEvent_noWrite hr hb, hostEvent_noWrite hr hb, hostEvent_noWrite hr hb, hostEvent_noWrite hr hb⟩

/-- The line that an output event comes from, and what a WERR says of the byte in flight (R112, R115, R131, R133). -/
def OutputSource (s : State) (t : Turn) : OutEvent → Prop
  | .tx _ => t = .engine
  | .done => t = .engine
  | .werr src i => t = lineErr ∧ s.busy = true ∧
      ((src = .pay ∧ i = s.pos ∧ s.phase = .run) ∨ (src = .hdr ∧ i = s.hidx.toNat ∧ s.phase = .hdr))

/-- R155, R156: a reaction keeps the trace, or it adds one output event and keeps `fault`. -/
theorem Reacts.output {s u : State} {t : Turn} (h : Reacts s t u) :
    u.trace = s.trace ∨ (u.fault = s.fault ∧ ∃ o, u.trace = s.trace ++ [o] ∧ OutputSource s t o) := by
  cases h with
  | reset | violation | start | rxAcc | cgPause | cgResume | txOkHdr | txOkPay => exact .inl rfl
  | txErrHdr _ _ hb hp => exact .inr ⟨rfl, _, rfl, lineErr_eq.symm, hb, .inr ⟨rfl, rfl, hp⟩⟩
  | txErrPay _ _ hb hp => exact .inr ⟨rfl, _, rfl, lineErr_eq.symm, hb, .inl ⟨rfl, rfl, hp⟩⟩
  | stepHdr => exact .inr ⟨rfl, _, rfl, rfl⟩
  | stepPay he =>
    obtain ⟨_, _, _, _, hl⟩ := payEnabled_iff.1 he
    obtain ⟨_, e⟩ | ⟨_, _, e⟩ | ⟨_, _, e⟩ := stream_out s hl <;> rw [e]
    · exact .inr ⟨rfl, _, rfl, rfl⟩
    · exact .inl rfl
    · exact .inr ⟨rfl, _, rfl, rfl⟩

/-- The line a step takes: the schedule's first, or the engine's turn with nothing offered. -/
def TakesLine (s : State) (t : Turn) : Prop :=
  s.schedule.head? = some t ∨ (s.schedule.head? = none ∧ t = .engine)

theorem TakesLine.engine {s : State} (h : TakesLine s .engine) : s.schedule.head? ∈ [none, some .engine] := by
  obtain hq | ⟨hq, _⟩ := h <;> simp [hq]

theorem TakesLine.err {s : State} (h : TakesLine s lineErr) : s.schedule.head? = some lineErr := by
  obtain hq | ⟨_, ht⟩ := h
  · exact hq
  · cases ht

/-- The same of a step, with the line it takes: the wait reports nothing. -/
theorem step_output {s u : State} (h : step s = .next u) :
    u.trace = s.trace ∨
      (u.fault = s.fault ∧ ∃ o t, u.trace = s.trace ++ [o] ∧ OutputSource s t o ∧ TakesLine s t) := by
  obtain ⟨_, _, rfl⟩ | ⟨t, rest, hq, hr⟩ := step_reacts h
  · exact .inl rfl
  · have hline : TakesLine s t := by
      obtain hq | ⟨hq, _, ht⟩ := hq
      · exact .inl (by rw [hq]; rfl)
      · exact .inr ⟨by rw [hq]; rfl, ht⟩
    obtain htr | ⟨hf, o, htr, hsrc⟩ := hr.output
    · exact .inl htr
    · exact .inr ⟨hf, o, t, htr, hsrc, hline⟩

/-- The output event that a step adds is the one it reports. -/
theorem step_output_of_trace {s u : State} {o : OutEvent} (h : step s = .next u) (htr : u.trace = s.trace ++ [o]) :
    u.fault = s.fault ∧ ∃ t, OutputSource s t o ∧ TakesLine s t := by
  obtain htr' | ⟨hf, o', t, htr', hsrc, hline⟩ := step_output h
  · simp [htr'] at htr
  · obtain rfl : o' = o := by simpa using htr'.symm.trans htr
    exact ⟨hf, t, hsrc, hline⟩

/-- Settles O47: TX and DONE come from the engine's line, WERR from TX_ERR's. -/
theorem oneOutcomeAReaction : Obligations.OneOutcomeAReaction := by
  intro s t h
  refine ⟨?_, fun b htr => ?_, fun htr => ?_, fun src i htr => ?_⟩
  · exact (step_output h).imp_right fun ⟨_, o, _, htr, _⟩ => ⟨o, htr⟩
  · obtain ⟨hf, _, rfl, hline⟩ := step_output_of_trace h htr
    exact ⟨hf, hline.engine⟩
  · obtain ⟨hf, _, rfl, hline⟩ := step_output_of_trace h htr
    exact ⟨hf, hline.engine⟩
  · obtain ⟨hf, _, ⟨rfl, hb, hidx⟩, hline⟩ := step_output_of_trace h htr
    exact ⟨hf, hline.err, hb, hidx⟩

end Sys2Proof.Machine
end

section
/-! SUPPORT. The receiver's recovery by groups (spec/60_exceptions.md R158): after the failed byte, a RESUME group, with
a PAUSE group before it where `sending` is 1, and the STEP that launches at the offset asked for. -/

namespace Sys2Proof.Machine

/-- A run of two lists continues the run of the first. -/
theorem runTurns_append {ts us : List Turn} {s t : State} (h : runTurns ts s = .next t) :
    runTurns (ts ++ us) s = runTurns us t := by
  induction ts generalizing s with
  | nil => cases h; rfl
  | cons x xs ih =>
    obtain ⟨u, hu, hrun⟩ := runTurns_cons_reacts h
    rw [List.cons_append, runTurns_of_reacts hu, ih hrun]

/-- A whole group, taken from `cnt` = 0, with more lines to come. -/
theorem runTurns_group_append {s : State} (ha : Accepting s) (hc : s.cnt = 0) (b0 b1 b2 : Byte) (ts : List Turn) :
    runTurns (group b0 b1 b2 ++ ts) s = runTurns ts (groupState s b0 b1 b2) := by
  rw [runTurns_append (runTurns_group ha hc b0 b1 b2), runTurns_withSchedule]

/-- The state with a launch requested at the offset `r`, sending, at a group boundary (R103). -/
def State.resumedAt (s : State) (r : Value) : State :=
  { s with sending := true, lreq := true, loff := r.toNat, acc := 0, cnt := 0 }

theorem runTurns_resumeGroup_append {s : State} (ha : Accepting s) (hc : s.cnt = 0) (hs : s.sending = false)
    (r : Value) (ts : List Turn) : runTurns (resumeGroup r ++ ts) s = runTurns ts (s.resumedAt r) := by
  rw [resumeGroup, runTurns_group_append ha hc, groupState, if_neg (by simp [hs]), resumeGroup_value]
  rfl

/-- R102, R103: whatever `sending` holds, these groups request a launch at `r`. -/
theorem runTurns_pause_resume_append {s : State} (ha : Accepting s) (hc : s.cnt = 0) (b0 b1 b2 : Byte) (r : Value)
    (ts : List Turn) :
    runTurns ((if s.sending then group b0 b1 b2 else []) ++ (resumeGroup r ++ ts)) s =
      runTurns ts (s.resumedAt r) := by
  cases hs : s.sending with
  | false => exact runTurns_resumeGroup_append ha hc hs r ts
  | true =>
    rw [if_pos rfl, runTurns_group_append ha hc, groupState, if_pos hs]
    exact runTurns_resumeGroup_append (s := { s with sending := false, acc := 0, cnt := 0 }) ha rfl rfl r ts

/-- R112: with a request pending and the engine free and sending, STEP launches: it writes the byte at the launch
offset, or reports DONE at or above N. -/
theorem launch_reacts {s : State} (ha : Accepting s) (hp : s.phase = .run) (hb : s.busy = false)
    (hl : s.lreq = true) (hs : s.sending = true) :
    ∃ u, Reacts s lineStep u ∧ u.pos = s.loff ∧
      u.trace = s.trace ++ (if s.loff < s.payloadSize then [.tx (s.payloadByte s.loff)] else [.done]) := by
  have hidx : s.streamIndex = s.loff := if_pos hl
  refine ⟨_, .stepPay (payEnabled_iff.2 ⟨ha.1, ha.2, hb, hp, .inl hl⟩), ?_⟩
  obtain ⟨hN, e⟩ | ⟨_, ht, _⟩ | ⟨hlt, _, e⟩ := stream_out s (.inl hl)
  · rw [hidx] at hN e
    rw [e, if_neg (Nat.not_lt.2 hN)]
    exact ⟨rfl, rfl⟩
  · cases hs.symm.trans ht
  · rw [hidx] at hlt e
    rw [e, if_pos hlt]
    exact ⟨rfl, rfl⟩

/-- The state after the payload byte in flight has failed (R115). -/
def State.failByte (s : State) : State := State.emit (.werr .pay s.pos) { s.answer with act := false }

theorem failByte_reacts {s : State} (ha : Accepting s) (hp : s.phase = .run) (hb : s.busy = true) :
    Reacts s lineErr s.failByte := by
  rw [lineErr_eq]
  exact .txErrPay ha.1 ha.2 hb hp

/-- Settles O53: the error ends the invocation and keeps the decoder's registers, the groups request the launch, and
the engine is free to take it. -/
theorem receiverRecoversAfterPayloadError : Obligations.ReceiverRecoversAfterPayloadError := by
  intro s b0 b1 b2 r ha hp hb _ hc
  obtain ⟨u, hu, hpos, htr⟩ := launch_reacts (s := s.failByte.resumedAt r) ha hp rfl rfl rfl
  have hgroups := runTurns_pause_resume_append (s := s.failByte) ha hc b0 b1 b2 r [lineStep]
  refine ⟨{ u with schedule := [] }, ?_, hpos, htr⟩
  rw [List.append_assoc, List.append_assoc, List.singleton_append, runTurns_of_reacts (failByte_reacts ha hp hb)]
  exact hgroups.trans (by rw [runTurns_of_reacts hu, runTurns_nil])

end Sys2Proof.Machine
end

section
/-! SUPPORT. The wait states (spec/60_exceptions.md R164): what ends a pause, and the end of a run seen from the views
of spec/70_reset_and_hazards.md R195. -/

namespace Sys2Proof.Machine

theorem paused_iff {s : State} : Paused s = true ↔ s.sending = false ∧ s.lreq = false := by
  simp [Paused]

theorem paused_false_of_sending {s : State} (hs : s.sending = true) : Paused s = false := by
  simp [Paused, hs]

theorem quiescent_iff {s : State} :
    Quiescent s = true ↔ s.fault = none ∧ s.stepEnabled = false ∧ s.busy = false := by
  simp [Quiescent, and_assoc]

theorem stalled_iff {s : State} :
    Stalled s = true ↔ Quiescent s = true ∧ s.schedule = [] ∧ Paused s = true := by
  simp [Stalled, Ended, and_assoc]

theorem complete_false_of_paused {s : State} (h : Paused s = true) : Complete s = false := by
  simp [Complete, h]

/-- While a byte is in flight no STEP is enabled (R111). -/
theorem stepEnabled_of_busy {s : State} (hb : s.busy = true) : s.stepEnabled = false := by
  simp [State.stepEnabled, State.hdrEnabled, State.payEnabled, State.engineFree, hb]

theorem quiescent_of_busy {s : State} (hb : s.busy = true) : Quiescent s = false := by
  simp [Quiescent, hb]

theorem complete_false_of_not_quiescent {s : State} (h : Quiescent s = false) : Complete s = false := by
  simp [Complete, Ended, h]

/-- A reaction keeps the pause, or it is RESET, START in IDLE, or the last byte of a resume group. -/
theorem Reacts.paused_cases {s u : State} {t : Turn} (h : Reacts s t u) (hpause : Paused s = true) :
    Paused u = true ∨ t = lineReset ∨ (s.phase = .idle ∧ t = lineStart ∧ u.sending = false) ∨
      (2 ≤ s.cnt.toNat ∧ (∃ b, t = lineRx b) ∧ u.sending = true ∧ u.lreq = true) := by
  obtain ⟨hs, hl⟩ := paused_iff.1 hpause
  cases h with
  | reset => exact .inr (.inl lineReset_eq.symm)
  | start _ _ hp => exact .inr (.inr (.inl ⟨hp, lineStart_eq.symm, hs⟩))
  | cgPause _ _ _ _ ht => cases hs.symm.trans ht
  | cgResume b _ _ hc => exact .inr (.inr (.inr ⟨Nat.le_of_not_lt hc, ⟨b, (lineRx_eq b).symm⟩, rfl, rfl⟩))
  | stepPay => exact .inl (paused_iff.2 (by simp [hs]))
  | violation | rxAcc | txOkHdr | txOkPay | txErrHdr | txErrPay | stepHdr => exact .inl hpause

/-- R164: a stalled run waits, keeps its state, and is neither complete nor faulted. -/
theorem stalled_waits {s : State} (h : Stalled s = true) :
    step s = .next s ∧ Quiescent s = true ∧ Complete s = false ∧ Faulted s = false := by
  obtain ⟨hquiet, hq, hpause⟩ := stalled_iff.1 h
  obtain ⟨hf, he, _⟩ := quiescent_iff.1 hquiet
  exact ⟨step_waits hq he, hquiet, complete_false_of_paused hpause, by simp [Faulted, hf]⟩

/-- R164, R117: what a step of a paused state can do. -/
theorem step_of_paused {s t : State} (hpause : Paused s = true) (h : step s = .next t) :
    (s.phase = .run → outboundBytes t.trace = outboundBytes s.trace) ∧
    (Paused t = true ∨ s.schedule.head? = some lineReset ∨
      (s.phase = .idle ∧ s.schedule.head? = some lineStart ∧ t.sending = false) ∨
      (2 ≤ s.cnt.toNat ∧ (∃ b, s.schedule.head? = some (lineRx b)) ∧ t.sending = true ∧ t.lreq = true)) := by
  obtain ⟨hs, _⟩ := paused_iff.1 hpause
  obtain rfl | ⟨x, hx, hr⟩ := step_turn h
  · exact ⟨fun _ => rfl, .inl hpause⟩
  · refine ⟨fun hp => hr.outboundBytes_paused hp hs, ?_⟩
    obtain hp | rfl | ⟨hi, rfl, ht⟩ | ⟨hc, ⟨b, rfl⟩, ht, hl⟩ := hr.paused_cases hpause
    · exact .inl hp
    · exact .inr (.inl (hx _ rfl))
    · exact .inr (.inr (.inl ⟨hi, hx _ rfl, ht⟩))
    · exact .inr (.inr (.inr ⟨hc, ⟨b, hx _ rfl⟩, ht, hl⟩))

/-- R103: the state after the last byte of a resume group. -/
theorem rxState_resume {s : State} (hc : s.cnt = 2) (hs : s.sending = false) (b : Byte) :
    rxState s b = (s.resumeSending.requestLaunch (offsetOf (shiftIn s.acc b))).closeGroup := by
  rw [rxState, if_neg (by simp [hc]), if_neg (by simp [hs])]

/-- R164: the resume group that completes wakes the engine of a phase RUN with nothing in flight. -/
theorem resume_wakes {s : State} {b : Byte} {rest : List Turn} (ha : Accepting s) (hpause : Paused s = true)
    (hc : s.cnt = 2) (hq : s.schedule = lineRx b :: rest) :
    ∃ t, step s = .next t ∧ Paused t = false ∧ t.sending = true ∧
      (s.phase = .run → s.busy = false → t.stepEnabled = true) := by
  obtain ⟨hs, _⟩ := paused_iff.1 hpause
  refine ⟨_, step_rx hq ha, ?_⟩
  rw [rxState_resume (s := { s with schedule := rest }) hc hs b]
  exact ⟨paused_false_of_sending rfl, rfl,
    fun hp hb => stepEnabled_iff.2 (.inr (payEnabled_iff.2 ⟨ha.1, ha.2, hb, hp, .inl rfl⟩))⟩

/-- Settles O58: the wait while paused, what ends it, and the wait for a TX response, which is no end of a run. -/
theorem aPausedRunWaitsForAResume : Obligations.APausedRunWaitsForAResume := by
  intro s
  refine ⟨stalled_waits, fun t => step_of_paused, fun b rest => resume_wakes, fun t h => ?_, fun hb hq => ?_⟩
  · cases h
    exact paused_false_of_sending rfl
  · have hquiet := quiescent_of_busy hb
    exact ⟨step_waits hq (stepEnabled_of_busy hb), hquiet, complete_false_of_not_quiescent hquiet⟩

end Sys2Proof.Machine
end

section
/-! SUPPORT. RESET (spec/70_reset_and_hazards.md R180, R181), the events before the first of them (R182), and the header
that a transfer sends from the clean launch state (R196, spec/42_header.md R136). -/

namespace Sys2Proof.Machine

/-! ### The state after RESET -/

/-- R180 writes the values of R181. -/
theorem clearRegisters_eq_reset (s : State) : s.clearRegisters =
    { State.reset with par := s.par, fault := s.fault, trace := s.trace, schedule := s.schedule } := rfl

theorem cleanLaunch_clearRegisters {s : State} (hf : s.fault = none) (hok : s.par.ok = true) :
    CleanLaunch s.clearRegisters := by
  refine ⟨?_, hok⟩
  rw [clearRegisters_eq_reset, hf]
  rfl

section
variable {s : State} (h : CleanLaunch s)
include h

theorem CleanLaunch.accepting : Accepting s := ⟨congrArg State.wasReset h.1, congrArg State.fault h.1⟩

theorem CleanLaunch.phase : s.phase = .idle := congrArg State.phase h.1

theorem CleanLaunch.busy : s.busy = false := congrArg State.busy h.1

end

/-- Settles O59: RESET writes the registers of the clean launch state, which is one in which a transfer can begin, and
the last three header bytes spell N mod 2^24. -/
theorem cleanLaunchSendsTheHeaderForEveryN : Obligations.CleanLaunchSendsTheHeaderForEveryN := by
  refine ⟨fun s hf hok => ⟨_, rfl, cleanLaunch_clearRegisters hf hok⟩, fun s ts h hts => ?_⟩
  obtain ⟨t, hrun, htr, hend⟩ := runTurns_header h.accepting h.phase h.busy hts
  exact ⟨t, _, _, _, hrun, htr, (headerLength_toNat _).symm, hend⟩

/-- R157: a TX response, of either word, is RespNoWrite with nothing in flight. -/
theorem violationOf_response {s : State} {w : EventWord} (hr : s.wasReset = true) (hb : s.busy = false)
    (hw : w = 0x300 ∨ w = 0x400) : violationOf s w = some (.respNoWrite w) := by
  rw [okWord_eq, errWord_eq] at hw
  obtain rfl | rfl := hw
  · rw [violationOf_ok, if_neg (by simp [hr]), noWrite_some.2 ⟨hb, rfl⟩]
  · rw [violationOf_err, if_neg (by simp [hr]), noWrite_some.2 ⟨hb, rfl⟩]

/-- Settles O6: RESET is `clearRegisters`, after which nothing is in flight for a late response to answer. -/
theorem resetWritesEveryRegister : Obligations.ResetWritesEveryRegister := by
  obtain ⟨_, _, _, hstatus, _⟩ := statusViewLayout
  refine fun s => ⟨s.clearRegisters, rfl, decodeEvent_eq_iff.2 ⟨rfl, rfl, rfl⟩, rfl, hstatus s _ rfl, fun w hw hf => ?_⟩
  have hlate := exec_of_reacts (.violation w _ (violationOf_response (s := s.clearRegisters) rfl rfl hw))
  rwa [State.clearRegisters_fault, hf] at hlate

/-- Settles O7: RESET leaves the phase IDLE, in which no STEP is enabled. -/
theorem resetGivesTheResetState : Obligations.ResetGivesTheResetState := by
  refine fun s => ⟨rfl, ?_, rfl⟩
  by_contra he
  obtain hp | hp := stepEnabled_phase (by simpa only [Bool.not_eq_false] using he) <;> cases hp

/-! ### Before the first RESET -/

/-- R182, R155: EventBeforeReset comes before whatever the row itself says. -/
theorem hostEvent_before_reset {w : EventWord} {viol : Option HostFault} {sel : Bool} {s t : State}
    (hr : s.wasReset = false) :
    hostEvent w viol sel s t = .next { s with fault := s.fault.or (some (.eventBeforeReset w)) } :=
  hostEvent_next.2 (.inl ⟨hr, rfl⟩)

/-- Settles O15: every row with an event word but RESET's is a `hostEvent` of that word. -/
theorem eventsBeforeResetAreHostFaults : Obligations.EventsBeforeResetAreHostFaults := by
  intro i w s he hne hr
  cases i with
  | reset => exact absurd rfl hne
  | stepHdr | stepPay => cases he
  | start | rxAcc | cgPause | cgResume | txOkHdr | txOkPay | txErrHdr | txErrPay | reservedKind | reservedData =>
    cases he
    rw [exec]
    exact hostEvent_before_reset hr

end Sys2Proof.Machine
end

section
/-! SUPPORT. A group that completes while a stream is live (spec/70_reset_and_hazards.md R188, R190): a resume with a
byte in flight, which the next STEP obeys once the byte is answered, and a pause on either side of a STEP. -/

namespace Sys2Proof.Machine

/-! ### A resume while a byte is in flight -/

/-- R82: a run does not get past a turn of the engine while STEP is disabled. -/
theorem runTurns_step_disabled {s : State} (he : s.stepEnabled = false) (ts : List Turn) :
    runTurns (lineStep :: ts) s = .refused .stepNotEnabled := by
  have h : core.step { s with schedule := lineStep :: ts } = .refused .stepNotEnabled :=
    engine_disabled (s := { s with schedule := ts }) he
  simp only [runTurns, List.length_cons, Host.Core.run, h]
  rfl

/-- The state after the payload byte in flight has drained (R114). -/
def State.drainByte (s : State) : State := { s.answer with pos := s.pos + 1 }

theorem drainByte_reacts {s : State} (ha : Accepting s) (hp : s.phase = .run) (hb : s.busy = true) :
    Reacts s lineOk s.drainByte := by
  rw [lineOk_eq]
  exact .txOkPay ha.1 ha.2 hb hp

/-- A payload step takes the launch request (R112). -/
theorem Reacts.step_run_lreq {s u : State} (h : Reacts s lineStep u) (hp : s.phase = .run) : u.lreq = false := by
  cases h with
  | stepHdr b he _ =>
    obtain ⟨_, _, _, hh⟩ := hdrEnabled_iff.1 he
    cases hp.symm.trans hh
  | stepPay => simp

/-- R114, R115: with a launch pending while sending, the answer to the payload byte in flight keeps both, so the next
STEP launches; of the two answers only TX_ERR reports. -/
theorem runTurns_response_launch {s : State} {resp : Turn} (ha : Accepting s) (hp : s.phase = .run)
    (hb : s.busy = true) (hl : s.lreq = true) (hs : s.sending = true) (hresp : resp = lineOk ∨ resp = lineErr) :
    ∃ t, runTurns [resp, lineStep] s = .next t ∧ t.pos = s.loff ∧ t.lreq = false ∧
      t.trace = s.trace ++ (if resp = lineErr then [.werr .pay s.pos] else []) ++
        (if s.loff < s.payloadSize then [.tx (s.payloadByte s.loff)] else [.done]) := by
  obtain rfl | rfl := hresp
  · obtain ⟨t, ht, hpos, htr⟩ := launch_reacts (s := s.drainByte) ha hp rfl hl hs
    refine ⟨{ t with schedule := [] }, ?_, hpos, ht.step_run_lreq hp, ?_⟩
    · rw [runTurns_of_reacts (drainByte_reacts ha hp hb), runTurns_of_reacts ht, runTurns_nil]
    · rw [if_neg (by decide), List.append_nil]
      exact htr
  · obtain ⟨t, ht, hpos, htr⟩ := launch_reacts (s := s.failByte) ha hp rfl hl hs
    refine ⟨{ t with schedule := [] }, ?_, hpos, ht.step_run_lreq hp, htr⟩
    rw [runTurns_of_reacts (failByte_reacts ha hp hb), runTurns_of_reacts ht, runTurns_nil]

/-- Settles O51: the resume leaves `busy` set and its request pending, and the answer leaves that request to the next
STEP. -/
theorem resumeInFlightSupersedes : Obligations.ResumeInFlightSupersedes := by
  intro s b resp v ha hp hb hc hs hresp hv
  rw [← offsetOf_shiftIn] at hv
  have hrx := rxState_reacts b ha
  rw [rxState_resume hc hs, ← hv] at hrx
  rw [runTurns_of_reacts hrx, runTurns_of_reacts hrx]
  refine ⟨runTurns_step_disabled ?_ [], ?_⟩
  · exact stepEnabled_of_busy hb
  · exact runTurns_response_launch (s := (s.resumeSending.requestLaunch v).closeGroup) ha hp hb rfl rfl hresp

/-! ### A pause beside a STEP -/

/-- R102: the last byte of a pause group. -/
theorem pause_reacts {s : State} (ha : Accepting s) (hc : s.cnt = 2) (hs : s.sending = true) (b : Byte) :
    Reacts s (lineRx b) s.pauseSending.closeGroup := by
  rw [lineRx_eq]
  exact .cgPause b ha.1 ha.2 (by simp [hc]) hs

/-- A live invocation with no request pending and nothing in flight (R27, R111). -/
structure LiveFree (s : State) : Prop where
  accepting : Accepting s
  phase : s.phase = .run
  busy : s.busy = false
  act : s.act = true
  lreq : s.lreq = false

section
variable {s : State} (h : LiveFree s)
include h

/-- R112: STEP goes on with the live invocation. -/
theorem LiveFree.step_reacts : Reacts s lineStep (streamOne s) := by
  obtain ⟨⟨hr, hf⟩, hp, hb, hact, hl⟩ := h
  have htake : s.takeLaunch = s := if_neg (by simp [hl])
  have hstep := Reacts.stepPay (payEnabled_iff.2 ⟨hr, hf, hb, hp, .inr hact⟩)
  rwa [htake] at hstep

/-- R112: sending, a byte below N is written. -/
theorem LiveFree.write_reacts (hlt : s.pos < s.payloadSize) (hs : s.sending = true) :
    Reacts s lineStep (s.writeByte (s.payloadByte s.pos)) := by
  have hone : streamOne s = s.writeByte (s.payloadByte s.pos) := (if_neg (Nat.not_le.2 hlt)).trans (if_pos hs)
  rw [← hone]
  exact h.step_reacts

/-- R112, R113: paused, STEP ends the invocation, silently below N and with DONE from there on. -/
theorem LiveFree.run_step_paused (hs : s.sending = false) :
    ∃ t, runTurns [lineStep] s = .next t ∧ t.act = false ∧ t.sending = false ∧
      (s.pos < s.payloadSize → t.trace = s.trace) ∧ (s.payloadSize ≤ s.pos → t.trace = s.trace ++ [.done]) := by
  have hrun := runTurns_of_reacts (ts := []) h.step_reacts
  rw [runTurns_nil] at hrun
  refine ⟨_, hrun, ?_⟩
  obtain ⟨hN, e⟩ | ⟨hlt, _, e⟩ | ⟨_, ht, _⟩ := streamOne_cases s
  · rw [e]
    exact ⟨rfl, hs, fun hlt => absurd hN (Nat.not_le.2 hlt), fun _ => rfl⟩
  · rw [e]
    exact ⟨rfl, hs, fun _ => rfl, fun hN => absurd hN (Nat.not_le.2 hlt)⟩
  · cases hs.symm.trans ht

end

/-- R190's first order: the pause, and then a STEP that stops the stream. -/
theorem run_pause_step {s : State} {b : Byte} (h : LiveFree s) (hc : s.cnt = 2) (hs : s.sending = true)
    (hlt : s.pos < s.payloadSize) :
    ∃ t, runTurns [lineRx b, lineStep] s = .next t ∧ t.trace = s.trace ∧ t.act = false := by
  obtain ⟨t, hrun, hact, _, htr, _⟩ := LiveFree.run_step_paused (s := s.pauseSending.closeGroup) { h with } rfl
  exact ⟨t, (runTurns_of_reacts (pause_reacts h.accepting hc hs b)).trans hrun, htr hlt, hact⟩

/-- R190's second order: a STEP that writes its byte, the pause, the drain, and a STEP that stops the stream at the
next index. -/
theorem run_step_pause {s : State} {b : Byte} (h : LiveFree s) (hc : s.cnt = 2) (hs : s.sending = true)
    (hlt : s.pos < s.payloadSize) :
    ∃ t, runTurns [lineStep, lineRx b, lineOk, lineStep] s = .next t ∧
      t.trace = s.trace ++ [.tx (s.payloadByte s.pos)] ++ (if s.pos + 1 = s.payloadSize then [.done] else []) ∧
      t.act = false ∧ t.sending = false := by
  have hpause := pause_reacts (s := s.writeByte (s.payloadByte s.pos)) h.accepting hc hs b
  have hdrain := drainByte_reacts (s := (s.writeByte (s.payloadByte s.pos)).pauseSending.closeGroup)
    h.accepting h.phase rfl
  obtain ⟨t, hrun, hact, hsend, hstop, hdone⟩ := LiveFree.run_step_paused
    (s := (s.writeByte (s.payloadByte s.pos)).pauseSending.closeGroup.drainByte) { h with busy := rfl } rfl
  refine ⟨t, ?_, ?_, hact, hsend⟩
  · rw [runTurns_of_reacts (h.write_reacts hlt hs), runTurns_of_reacts hpause, runTurns_of_reacts hdrain, hrun]
  · by_cases hlast : s.pos + 1 = s.payloadSize
    · rw [if_pos hlast]
      exact hdone hlast.ge
    · rw [if_neg hlast, List.append_nil]
      exact hstop (lt_of_le_of_ne hlt hlast)

/-- Settles O52: a pause before the STEP makes it a silent stop; after a STEP that wrote, the stop comes with the STEP
that follows the drain. -/
theorem pauseRaceAdmitsBothOrders : Obligations.PauseRaceAdmitsBothOrders := by
  intro s b ha hp hb hact hl hc hs hlt
  have h : LiveFree s := ⟨ha, hp, hb, hact, hl⟩
  exact ⟨run_pause_step h hc hs hlt, run_step_pause h hc hs hlt⟩

end Sys2Proof.Machine
end
